-- ==== Sys2Proof/Word.lean ====
section
/-! DEFINITION. The two word types of the engine: the 8-bit byte (table entries, cursors, memory cells, R20, R50)
and the 32-bit word (descriptor words, operands, STATUS, R27, R80). -/

namespace Sys2Proof

/-- One byte: the addressable unit of memory (R50) and the width of a table entry and of a cursor (R8, R20). -/
abbrev Byte := BitVec 8

/-- One 32-bit word: a descriptor word (R80), an operand (R83), STATUS (R27). -/
abbrev Word := BitVec 32

/-- The 128-bit descriptor, one command (R80). -/
abbrev Descriptor := BitVec 128

end Sys2Proof
end

