-- ==== Sys2Proof/Syntax.lean ====
section
/-! DEFINITION. The syntax of the command set: one constructor per row of spec/opcode_table.json (R82), and the lines of
the assembler (R89, R90) with their operands as written. -/

namespace Sys2Proof

/-- The commands: exactly two (R82, R181). Operands are the 32-bit fields as they stand in the descriptor (R83). -/
inductive Instr
  /-- `SCHED KADDR, KLEN` (R84, R101). -/
  | sched (kaddr klen : Word)
  /-- `PROC SRC, DST, LEN` (R85, R121). -/
  | proc (src dst len : Word)
deriving DecidableEq, Repr

/-- One assembler line, a command or a pseudo-instruction, with its operands as the numbers that were written
(R89, R90). -/
inductive AsmLine
  | sched (kaddr klen : Nat)
  | proc (src dst len : Nat)
  | enc (src dst len : Nat)
  | dec (src dst len : Nat)
  | proci (buf len : Nat)
deriving DecidableEq, Repr

/-- The operands of a line, in the order written. -/
def AsmLine.operands : AsmLine → List Nat
  | .sched a n => [a, n]
  | .proc s d n => [s, d, n]
  | .enc s d n => [s, d, n]
  | .dec s d n => [s, d, n]
  | .proci b n => [b, n]

/-- The command a line stands for (R90: `enc` and `dec` are `proc`, `proci b, n` is `proc b, b, n`). -/
def AsmLine.instr : AsmLine → Instr
  | .sched a n => .sched (BitVec.ofNat 32 a) (BitVec.ofNat 32 n)
  | .proc s d n => .proc (BitVec.ofNat 32 s) (BitVec.ofNat 32 d) (BitVec.ofNat 32 n)
  | .enc s d n => .proc (BitVec.ofNat 32 s) (BitVec.ofNat 32 d) (BitVec.ofNat 32 n)
  | .dec s d n => .proc (BitVec.ofNat 32 s) (BitVec.ofNat 32 d) (BitVec.ofNat 32 n)
  | .proci b n => .proc (BitVec.ofNat 32 b) (BitVec.ofNat 32 b) (BitVec.ofNat 32 n)

end Sys2Proof
end

