-- ==== Sys2Proof/Machine/Registers.lean ====
section
/-! DEFINITION. The types of the engine's registers: the permutation table and the cipher state (R20 to R24), the
sequencer's phase and transient registers (R31), the response codes (R162) and one memory access (R59, R60). -/

namespace Sys2Proof.Machine

/-- The permutation table S: 256 entries of 8 bits, named by an 8-bit index (R21). -/
abbrev Table := Vector Byte 256

/-- The cipher state (S, CA, CB), "the only persistent entity" (R19, R20). -/
structure Cipher where
  /-- The permutation table (R21). -/
  S : Table
  /-- The cursor CA (R23). -/
  ca : Byte
  /-- The cursor CB (R23). -/
  cb : Byte
deriving DecidableEq, Repr, Inhabited

/-- The sequencer's phase (R31, R33). -/
inductive Phase
  | idle
  | ksa
  | wide
  | byte
deriving DecidableEq, Repr, Inhabited

/-- The transient registers of the sequencer, one field per row of R31's table. -/
structure Sequencer where
  /-- PHASE. -/
  phase : Phase
  /-- I, the key-schedule step number, 0 .. 256. -/
  i : BitVec 9
  /-- ID1, the index of the next key byte. -/
  id1 : Byte
  /-- ID2, the second key-schedule cursor. -/
  id2 : Byte
  /-- KADDR_L, latched key address. -/
  kaddrL : Word
  /-- KLEN_L, latched key length, 1 .. 256. -/
  klenL : BitVec 9
  /-- SRC_L, latched input address. -/
  srcL : Word
  /-- DST_L, latched output address. -/
  dstL : Word
  /-- LEN_L, latched length. -/
  lenL : Word
  /-- POS, the offset of the next byte or chunk. -/
  pos : Word
  /-- T, the value t of one keystream step (R122). -/
  t : Byte
  /-- U, the value u of one keystream step (R122). -/
  u : Byte
  /-- KS, the keystream byte of one keystream step (R122). -/
  ks : Byte
  /-- KW, the packed keystream word of one chunk, `8·W` bits. Its width is the strap `W`, so it is a number below
  `2^(8·W)` and the invariant of Safety.lean says so. -/
  kw : Nat
  /-- IW, the input word of one chunk, `8·W` bits, held as KW is. -/
  iw : Nat
deriving DecidableEq, Repr, Inhabited

/-- The response codes, in the order of R162. Codes 6 to 15 have no name because they are never produced. -/
inductive Code
  | ok
  | invalidKeyLength
  | noState
  | addrRange
  | overlap
  | illegalCommand
deriving DecidableEq, Repr

/-- The direction of a memory access. -/
inductive AccessKind
  | read
  | write
deriving DecidableEq, Repr

/-- One access on the memory port: its direction, its address and its width in bytes (R59, R60). -/
structure Access where
  /-- Read or write. -/
  kind : AccessKind
  /-- The lowest byte address touched. -/
  addr : Nat
  /-- The number of bytes touched: 1 or `W`. -/
  width : Nat
deriving DecidableEq, Repr

end Sys2Proof.Machine
end

