-- ==== Sys2Proof/Config.lean ====
section
/-! DEFINITION. What one engine instance fixes: the straps of R8 and R28 (the OPEN parameters), the fixed parameters of
R8, and the free values: what the spec calls unspecified, as constants without a body. -/

namespace Sys2Proof

/-- The byte order of a `W`-byte access and of packing (R53, R54). -/
inductive ByteOrder
  | le
  | be
deriving DecidableEq, Repr

/-- The straps (R8, R28): the parameters the spec leaves OPEN. They are constants of an instance: no command writes
them and reset does not change them. -/
structure Config where
  /-- MEM_BYTES, the size of memory. -/
  memBytes : Nat
  /-- CHUNK_BYTES, written `W`. -/
  chunkBytes : Nat
  /-- BYTE_ORDER. -/
  byteOrder : ByteOrder
  /-- WIDE_EN. -/
  wideEn : Bool
deriving DecidableEq, Repr

/-- KEY_MIN (R8). -/
def Config.keyMin : Nat := 1

/-- KEY_MAX (R8). -/
def Config.keyMax : Nat := 256

/-- The configuration of the spec's vectors and programs, `MEM_BYTES = 0x1000` (95_test_vectors.md, Conventions), with
one of the eight settings of the other three straps it evaluates. DESIGN CHOICE (notes/assumptions/1.md): the straps are
OPEN in the spec, and every statement about a state holds for every setting. -/
def Config.vectors : Config :=
  { memBytes := 0x1000, chunkBytes := 4, byteOrder := .le, wideEn := true }

/-- Free value: the cipher state at power-on, "any 256 bytes, not necessarily a permutation" and any cursors
(R39; notes/assumptions/2.md). -/
opaque Config.powerOnCipher : Machine.Cipher

/-- Free value: the sequencer's registers at power-on (R39; notes/assumptions/3.md). -/
opaque Config.powerOnSequencer : Machine.Sequencer

/-- Free value: the cipher state a reset leaves, for the draw number of this reset and the cipher state it found
(R39, R190, R191; notes/assumptions/4.md). -/
opaque Config.resetCipher : Nat → Machine.Cipher → Machine.Cipher

/-- Free value: the sequencer's registers a reset leaves, for the draw number of this reset and the registers it found
(R39, R190; notes/assumptions/4.md). -/
opaque Config.resetSequencer : Nat → Machine.Sequencer → Machine.Sequencer

end Sys2Proof
end

