-- ==== Sys2Proof/WellFormed.lean ====
section
/-! DEFINITION. The checks on terms that may be ill formed: the straps (R8) and an assembler line's operands (R89). An
`Instr` has no ill-formed term: its operands are 32-bit fields and every value of each is a legal encoding (R83, R87). -/

namespace Sys2Proof

/-- MEM_BYTES is in 1 .. 2^32 (R8). -/
def Config.memBytesLegal (c : Config) : Bool := decide (1 ≤ c.memBytes) && decide (c.memBytes ≤ 2 ^ 32)

/-- CHUNK_BYTES is 4 or 8 (R8, R28). -/
def Config.chunkBytesLegal (c : Config) : Bool := c.chunkBytes == 4 || c.chunkBytes == 8

/-- The straps have legal values (R8). -/
def Config.legal (c : Config) : Bool := c.memBytesLegal && c.chunkBytesLegal

/-- Every operand of the line fits in 32 bits unsigned; "the assembler rejects anything else" (R89). -/
def AsmLine.wellFormed (l : AsmLine) : Bool := l.operands.all fun n => decide (n < 2 ^ 32)

/-- Every command is well formed: no operand value is a reserved encoding (R83, R87). -/
def Instr.wellFormed : Instr → Bool
  | .sched _ _ => true
  | .proc _ _ _ => true

end Sys2Proof
end

