-- ==== Sys2Proof/Decode.lean ====
section
/-! DEFINITION. The descriptor's fields (R80, R81), the decoder (R86, R87), the encoder (R84, R85), the opcode table's
rows (R92) and the assembler's encoding of a line (R89). -/

namespace Sys2Proof

/-- Why a descriptor is illegal (R86): the three grounds, named. -/
inductive Illegal
  /-- `RSV0 ≠ 0`. -/
  | reservedBits
  /-- `OPC = 0x01` and `RSV2 ≠ 0`. -/
  | reservedWord
  /-- `OPC` is neither 0x01 nor 0x02. -/
  | unknownOpcode
deriving DecidableEq, Repr

/-- The decoder's answer: a command, or the ground of refusal. -/
inductive Decoded
  | legal (i : Instr)
  | illegal (why : Illegal)
deriving DecidableEq, Repr

/-- The descriptor word DWk = `D[32k+31 : 32k]` (R80). -/
def descriptorWord (D : Descriptor) (k : Nat) : Word := D.extractLsb' (32 * k) 32

/-- The field OPC = `DW0[7:0]` (R81). -/
def opcField (D : Descriptor) : BitVec 8 := D.extractLsb' 0 8

/-- The field RSV0 = `DW0[31:8]` (R81). -/
def rsv0Field (D : Descriptor) : BitVec 24 := D.extractLsb' 8 24

/-- The field A1 = DW1: KADDR or SRC (R81). -/
def a1Field (D : Descriptor) : Word := descriptorWord D 1

/-- The field A2 = DW2: RSV2 or DST (R81). -/
def a2Field (D : Descriptor) : Word := descriptorWord D 2

/-- The field N = DW3: KLEN or LEN (R81). -/
def nField (D : Descriptor) : Word := descriptorWord D 3

/-- Decoding, total on every descriptor (R87). -/
def decode (D : Descriptor) : Decoded :=
  if rsv0Field D ≠ 0 then .illegal .reservedBits
  else if opcField D = 0x01 then
    if a2Field D = 0 then .legal (.sched (a1Field D) (nField D)) else .illegal .reservedWord
  else if opcField D = 0x02 then .legal (.proc (a1Field D) (a2Field D) (nField D))
  else .illegal .unknownOpcode

/-- Encoding (R84, R85): `{KLEN, 0, KADDR, 0x00000001}` and `{LEN, DST, SRC, 0x00000002}`. -/
def encode : Instr → Descriptor
  | .sched kaddr klen => klen ++ (0 : Word) ++ kaddr ++ (0x00000001 : Word)
  | .proc src dst len => len ++ dst ++ src ++ (0x00000002 : Word)

/-- One row of the opcode table: a mask and a match over the 128 bits (R92). -/
structure OpcodeRow where
  /-- The row's mnemonic, as the table spells it. -/
  mnemonic : String
  /-- The bits the row fixes. -/
  mask : Descriptor
  /-- Their values. -/
  value : Descriptor
deriving DecidableEq, Repr

/-- The row of SCHED (R84). -/
def schedRow : OpcodeRow :=
  { mnemonic := "SCHED"
    mask := 0x00000000FFFFFFFF00000000FFFFFFFF#128
    value := 0x00000000000000000000000000000001#128 }

/-- The row of PROC (R85). -/
def procRow : OpcodeRow :=
  { mnemonic := "PROC"
    mask := 0x000000000000000000000000FFFFFFFF#128
    value := 0x00000000000000000000000000000002#128 }

/-- A descriptor matches a row iff `(D and mask) = match` (R92). -/
def OpcodeRow.fits (r : OpcodeRow) (D : Descriptor) : Bool := D &&& r.mask == r.value

/-- The instruction of a legal descriptor, none for an illegal one. -/
def Decoded.instr? : Decoded → Option Instr
  | .legal i => some i
  | .illegal _ => none

/-- The decoder on a table word: a descriptor travels on the command port as one 128-bit value with bit 0 the least
significant bit of DW0 (R56, R80), so the word is the descriptor. -/
def decodeTableWord (nbits w : Nat) : Option Instr := (decode (BitVec.ofNat 128 (w % 2 ^ nbits))).instr?

/-- The assembler emits the descriptor of R84 or R85, or rejects the line (R89). -/
def assemble (l : AsmLine) : Option Descriptor := if l.wellFormed then some (encode l.instr) else none

end Sys2Proof
end

