-- ==== Sys2Proof/Machine/State.lean ====
section
/-! DEFINITION. The state of one engine instance with its memory and ports, the reasons a step can stop, and the state
right after reset (R20, R27, R28, R31, R39, R50). -/

namespace Sys2Proof.Machine

/-- The data memory: address and byte pairs with the addresses strictly rising and no entry equal to what an unlisted
address reads as (`Memory.wf` in Ops.lean). R50. -/
abbrev Memory := List Host.Cell

/-- What the host may do to the engine, in the order it does it (R12): hand it a descriptor, write a byte of memory
between commands, reset it, or reset it while the command it hands over is running. -/
inductive HostEvent
  /-- A descriptor on the command port (R80). -/
  | command (D : Descriptor)
  /-- The host writes a byte of memory between two commands (R12). -/
  | write (a : Word) (b : Byte)
  /-- Reset of an idle engine (R190). -/
  | reset
  /-- A descriptor, and a reset that arrives after `n` sequencer steps of it, before its response (R193). -/
  | commandReset (D : Descriptor) (n : Nat)
deriving DecidableEq, Repr

/-- Reasons a step stops with a fault. The engine itself never stops (R10, R160). -/
inductive Fault
  /-- Raised by the host's own write to an address at or above MEM_BYTES, which does not exist (R50). Safe. -/
  | noSuchAddress (a : Nat)
deriving DecidableEq, Repr

/-- Reasons a step is refused. -/
inductive Refusal
  /-- Raised by an arm of `exec` whose instruction has no meaning yet; no arm does. Safe. -/
  | notModelled (mnemonic : String)
deriving DecidableEq, Repr

/-- The state: R20's engine state, the straps of R28, the memory of R50, and the ports of the command interface. -/
structure State where
  /-- The straps, constant (R28). -/
  cfg : Config
  /-- The cipher state S, CA, CB (R20). -/
  cipher : Cipher
  /-- The flag VALID (R26). -/
  valid : Bool
  /-- The register STATUS (R27). -/
  status : Word
  /-- The sequencer's registers (R31). -/
  seq : Sequencer
  /-- The data memory (R50). -/
  mem : Memory
  /-- The memory port: every access made, newest first (R60). -/
  bus : List Access
  /-- The command port: what the host does next, first to come first (R11, R12). -/
  port : List HostEvent
  /-- The response port: every response delivered, newest first (R160). -/
  responses : List Word
  /-- The number of resets so far: the model's own, it numbers the free values (R39). -/
  draws : Nat
deriving DecidableEq, Repr

/-- KW and IW keep their `8·W` bits (R31). -/
def Sequencer.clip (W : Nat) (q : Sequencer) : Sequencer :=
  { q with kw := q.kw % 2 ^ (8 * W), iw := q.iw % 2 ^ (8 * W) }

/-- The state right after power-on reset with the given straps: VALID = 0, STATUS = 0, PHASE = IDLE, the rest of the
engine unspecified (R39), memory with nothing listed, nothing on the ports. -/
def State.resetWith (cfg : Config) : State :=
  { cfg := cfg
    cipher := Config.powerOnCipher
    valid := false
    status := 0
    seq := { (Config.powerOnSequencer).clip cfg.chunkBytes with phase := .idle }
    mem := []
    bus := []
    port := []
    responses := []
    draws := 0 }

/-- The state right after reset, for the configuration of the spec's vectors (R39; notes/assumptions/1.md). -/
def State.reset : State := State.resetWith Config.vectors

end Sys2Proof.Machine
end

