-- ==== Sys2Proof/Machine/Flags.lean ====
section
/-! DEFINITION. The response word and STATUS: how VALID and the response code make the 32 bits (R27, R161, R162). There
is no other flag: no carry, no zero flag (R26, R133). -/

namespace Sys2Proof.Machine

/-- The number of a response code (R162). -/
def Code.bits : Code → BitVec 4
  | .ok => 0
  | .invalidKeyLength => 1
  | .noState => 2
  | .addrRange => 3
  | .overlap => 4
  | .illegalCommand => 5

/-- The response word: `zext_32({VALID, CODE})` (R161). -/
def responseWord (valid : Bool) (c : Code) : Word := (BitVec.ofBool valid ++ c.bits).setWidth 32

/-- The field CODE of STATUS, bits 3:0 (R27). -/
def statusCode (w : Word) : BitVec 4 := w.extractLsb' 0 4

/-- The field VALID of STATUS, bit 4 (R27). -/
def statusValid (w : Word) : Bool := w.getLsbD 4

/-- The number of a phase (R31): IDLE 0, KSA 1, WIDE 2, BYTE 3. -/
def Phase.bits : Phase → BitVec 2
  | .idle => 0
  | .ksa => 1
  | .wide => 2
  | .byte => 3

end Sys2Proof.Machine
end

