-- ==== Sys2Proof/Machine/Ops.lean ====
section
/-! DEFINITION. The named operations over the table, memory and the ports: table access and swap (R14), one byte of
memory and the `W`-byte word (R15, R54), packing (R143), ending a command with a response, taking a fault (R16, R163,
R173) and reset (R190). -/

namespace Sys2Proof.Machine

/-! ### The permutation table -/

/-- `S[i]` (R14). -/
def Table.entry (T : Table) (i : Byte) : Byte := T[i.toNat]'i.isLt

/-- `S[i] <- v` (R14). -/
def Table.put (T : Table) (i v : Byte) : Table := T.set i.toNat v i.isLt

/-- `swap(S, i, j)`: both entries are read before either is written, so it is the identity when `i = j` (R14). -/
def Table.exchange (T : Table) (i j : Byte) : Table :=
  let x := Table.entry T i
  let y := Table.entry T j
  Table.put (Table.put T i y) j x

/-- The identity table `[0, 1, .., 255]` (R102). -/
@[irreducible] def Table.identity : Table := Vector.ofFn fun i => BitVec.ofNat 8 i.val

/-! ### Memory -/

/-- What an address that nothing has written reads as. The spec gives memory no reset contents; its programs start with
"all memory bytes 00" (95_test_vectors.md, Part C). DESIGN CHOICE (notes/assumptions/5.md). -/
def Memory.unlisted : Byte := 0

/-- The canonical form: addresses strictly rising, no entry equal to what an unlisted address reads as. -/
abbrev Memory.wf (m : Memory) : Prop :=
  m.Pairwise (fun x y => x.1 < y.1) ∧ ∀ c ∈ m, c.2 ≠ Memory.unlisted

/-- Every listed address exists: it lies in `0 .. MEM_BYTES − 1` (R50). -/
abbrev Memory.within (m : Memory) (memBytes : Nat) : Prop := ∀ c ∈ m, c.1 < memBytes

/-- `M[a]` (R15). -/
def Memory.read : Memory → Nat → Byte
  | [], _ => Memory.unlisted
  | (a', b) :: m, a => if a = a' then b else Memory.read m a

/-- `M[a] <- b`, keeping the canonical form (R15). -/
def Memory.write : Memory → Nat → Byte → Memory
  | [], a, b => if b = Memory.unlisted then [] else [(a, b)]
  | (a', b') :: m, a, b =>
    if a < a' then if b = Memory.unlisted then (a', b') :: m else (a, b) :: (a', b') :: m
    else if a = a' then if b = Memory.unlisted then m else (a, b) :: m
    else (a', b') :: Memory.write m a b

/-- The bit at which lane `k` of a `W`-byte word begins (R54, R151). -/
def laneShift (order : ByteOrder) (W k : Nat) : Nat :=
  match order with
  | .le => 8 * k
  | .be => 8 * (W - 1 - k)

/-- The `8·W`-bit word whose lane `k` is `f k`: the sum over k of `f k · 2^(lane k)` (R54, R143). -/
def pack (order : ByteOrder) (W : Nat) (f : Nat → Byte) : Nat :=
  ((List.range W).map fun k => (f k).toNat * 2 ^ laneShift order W k).sum

/-- The byte in lane `k` of a word: `v[lane k + 7 : lane k]` (R54). -/
def laneByte (order : ByteOrder) (W v k : Nat) : Byte := BitVec.ofNat 8 (v / 2 ^ laneShift order W k)

/-- `MemRead(a, W)`: word assembly (R54). -/
def Memory.readWord (order : ByteOrder) (W : Nat) (m : Memory) (a : Nat) : Nat :=
  pack order W fun k => Memory.read m (a + k)

/-- `MemWrite(a, W, v)`: byte `k` of the word goes to `a + k` (R54). -/
def Memory.writeWord (order : ByteOrder) (W : Nat) (m : Memory) (a v : Nat) : Memory :=
  (List.range W).foldl (fun m' k => Memory.write m' (a + k) (laneByte order W v k)) m

/-! ### Accesses of the memory port -/

/-- The memory port makes one more access (R60). -/
def State.access (s : State) (kind : AccessKind) (a n : Nat) : State :=
  { s with bus := { kind := kind, addr := a, width := n } :: s.bus }

/-- `MemWrite(a, 1, b)`: one 1-byte write (R15, R60). -/
def State.storeByte (s : State) (a : Nat) (b : Byte) : State :=
  { s.access .write a 1 with mem := s.mem.write a b }

/-- `MemWrite(a, W, v)`: one `W`-byte write in the platform's byte order (R15, R53, R60). -/
def State.storeWord (s : State) (a v : Nat) : State :=
  { s.access .write a s.cfg.chunkBytes with mem := s.mem.writeWord s.cfg.byteOrder s.cfg.chunkBytes a v }

/-! ### Responses, faults, reset -/

/-- `respond(CODE)`: STATUS takes the response word, the response is delivered, the engine is idle (R16, R161). What the
sequencer's other registers hold between commands is open (R32); DESIGN CHOICE (notes/assumptions/17.md): they keep their
contents. -/
def State.respond (s : State) (c : Code) : State :=
  { s with
    status := responseWord s.valid c
    responses := responseWord s.valid c :: s.responses
    seq := { s.seq with phase := .idle } }

/-- Taking a fault: "write STATUS, deliver the response, go to IDLE"; nothing is saved and nothing else changes
(R16, R163, R173). There is no return from a fault (R174). -/
def State.raise (s : State) (c : Code) : State := s.respond c

/-- Reset: VALID = 0, STATUS = 0, PHASE = IDLE; the cipher state and the sequencer's other registers are unspecified,
free values of the draw number and of what they held; straps and memory untouched (R39, R190, R191;
notes/assumptions/4.md). -/
def State.hostReset (s : State) : State :=
  { s with
    valid := false
    status := 0
    cipher := Config.resetCipher s.draws s.cipher
    seq := { (Config.resetSequencer s.draws s.seq).clip s.cfg.chunkBytes with phase := .idle }
    draws := s.draws + 1 }

end Sys2Proof.Machine
end

