-- ==== Sys2Proof/Machine/Operands.lean ====
section
/-! DEFINITION. What the engine computes from the operands of a descriptor before its first access: range, overlap and
key-length checks in their fixed order (R165, R170) and the choice of path (R141). -/

namespace Sys2Proof.Machine

/-- The operand range `[a, a + n)` lies in memory: `a + n ≤ MEM_BYTES`, the sum without wrap (R63). -/
def rangeValid (cfg : Config) (a n : Word) : Bool := decide (a.toNat + n.toNat ≤ cfg.memBytes)

/-- The input and the output range overlap without being identical (R169). -/
def rangesOverlap (src dst len : Word) : Bool :=
  decide (src ≠ dst) && decide (src.toNat < dst.toNat + len.toNat) && decide (dst.toNat < src.toNat + len.toNat)

/-- The key length is in 1 .. 256 (R106). -/
def keyLengthValid (klen : Word) : Bool :=
  decide (Config.keyMin ≤ klen.toNat) && decide (klen.toNat ≤ Config.keyMax)

/-- The checks of SCHED in their order: the fault of the first that fails (R101, R165). -/
def schedCheck (cfg : Config) (kaddr klen : Word) : Option Code :=
  if !keyLengthValid klen then some .invalidKeyLength
  else if !rangeValid cfg kaddr klen then some .addrRange
  else none

/-- The checks of PROC in their order: the fault of the first that fails; with LEN = 0 nothing after VALID is checked
(R121, R124, R165). -/
def procCheck (cfg : Config) (valid : Bool) (src dst len : Word) : Option Code :=
  if !valid then some .noState
  else if len = 0 then none
  else if !rangeValid cfg src len || !rangeValid cfg dst len then some .addrRange
  else if rangesOverlap src dst len then some .overlap
  else none

/-- The wide path is selected: WIDE_EN, both addresses multiples of `W`, at least one chunk (R141). -/
def wideSelected (cfg : Config) (src dst len : Word) : Bool :=
  cfg.wideEn && src.toNat % cfg.chunkBytes == 0 && dst.toNat % cfg.chunkBytes == 0
    && decide (cfg.chunkBytes ≤ len.toNat)

/-- The number of chunks: `LEN div W` on the wide path, none on the byte path (R121, R142). -/
def chunkCount (cfg : Config) (src dst len : Word) : Nat :=
  if wideSelected cfg src dst len then len.toNat / cfg.chunkBytes else 0

end Sys2Proof.Machine
end

