-- ==== Sys2Proof/Machine/KeySchedule.lean ====
section
/-! DEFINITION. The key scheduler: one key-schedule step (R34, R103) and the command SCHED (R101). The locals `i`,
`id1`, `id2` of the rule are the sequencer's registers I, ID1, ID2 (R31, R37). -/

namespace Sys2Proof.Machine

/-- `id1` advances and wraps at KLEN, by a 9-bit comparison (R103, R110). -/
def nextKeyIndex (id1 : Byte) (klen : BitVec 9) : Byte :=
  if id1.setWidth 9 + 1 = klen then 0 else id1 + 1

/-- The address of the key byte of this step, `KADDR_L + ID1` (R34). -/
def keyByteAddr (s : State) : Nat := s.seq.kaddrL.toNat + s.seq.id1.toNat

/-- The key byte of this step (R103). -/
def keyByte (s : State) : Byte := s.mem.read (keyByteAddr s)

/-- The step number as an index of the table: the low 8 bits of I. -/
def stepIndex (s : State) : Byte := s.seq.i.setWidth 8

/-- The new `id2`: `(k + S[i] + id2) mod 256`, `S[i]` read before the swap (R103). -/
def nextId2 (s : State) : Byte := keyByte s + s.cipher.S.entry (stepIndex s) + s.seq.id2

/-- One key-schedule step: one 1-byte read of the key, the swap, the advance of I, ID1 and ID2 (R34, R103). -/
def ksaStep (s : State) : State :=
  { s.access .read (keyByteAddr s) 1 with
    cipher := { s.cipher with S := s.cipher.S.exchange (stepIndex s) (nextId2 s) }
    seq := { s.seq with
      i := s.seq.i + 1
      id1 := nextKeyIndex s.seq.id1 s.seq.klenL
      id2 := nextId2 s } }

/-- Acceptance of a SCHED: the operands are latched, S is set to the identity, `id1` and `id2` start at 0
(R33, R102, R108). -/
def latchSched (kaddr klen : Word) (s : State) : State :=
  { s with
    cipher := { s.cipher with S := Table.identity }
    seq := { s.seq with
      phase := .ksa
      kaddrL := kaddr
      klenL := klen.setWidth 9
      i := 0
      id1 := 0
      id2 := 0 } }

/-- Completion of a SCHED: CA <- 0, CB <- 0, VALID <- 1, response OK (R104). The rule keeps none of `id1`, `id2` and the
spec leaves I, ID1, ID2, KADDR_L and KLEN_L open between commands (R32); DESIGN CHOICE (notes/assumptions/17.md): they
stay in the sequencer as the last step left them, and no command reads them. -/
def finishSched (s : State) : State :=
  State.respond { s with cipher := { s.cipher with ca := 0, cb := 0 }, valid := true } .ok

/-- SCHED (R101): the checks, then the identity, 256 key-schedule steps and the completion. -/
def execSched (kaddr klen : Word) (s : State) : Host.Outcome State Fault Refusal :=
  match schedCheck s.cfg kaddr klen with
  | some c => .next (s.raise c)
  | none => .next (finishSched (ksaStep^[256] (latchSched kaddr klen s)))

end Sys2Proof.Machine
end

