-- ==== Sys2Proof/Machine/Stream.lean ====
section
/-! DEFINITION. The stream processor: the keystream step (R122), the byte path (R35, R126), the wide path's chunk
(R36, R145) and the command PROC (R121). -/

namespace Sys2Proof.Machine

/-- What one keystream step yields: the new cipher state and the values t, u, ks. -/
structure KeystreamStep where
  /-- The cipher state after the step. -/
  cipher : Cipher
  /-- `t = S[CA]`, with the new CA. -/
  t : Byte
  /-- `u = S[CB]`, with the new CB, before the swap. -/
  u : Byte
  /-- The keystream byte, read after the swap. -/
  ks : Byte
deriving DecidableEq, Repr

/-- One keystream step (R122): the index of `ks` is `(t + u) mod 256` and the read is after the swap (C1, R134). -/
def keystreamStep (c : Cipher) : KeystreamStep :=
  let ca := c.ca + 1
  let t := c.S.entry ca
  let cb := t + c.cb
  let u := c.S.entry cb
  let S' := c.S.exchange ca cb
  { cipher := { S := S', ca := ca, cb := cb }, t := t, u := u, ks := S'.entry (t + u) }

/-- The cipher state after `n` keystream steps. -/
def Cipher.advance (c : Cipher) : Nat → Cipher
  | 0 => c
  | n + 1 => (keystreamStep (Cipher.advance c n)).cipher

/-- The keystream byte of offset `p`: that of the `p`-th keystream step, counting from 0 (R123). -/
def Cipher.keystream (c : Cipher) (p : Nat) : Byte := (keystreamStep (c.advance p)).ks

/-- A keystream step on the engine's registers: S, CA, CB advance, and T, U, KS hold the step's values (R31, R35). -/
def stepKeystream (s : State) : State :=
  let r := keystreamStep s.cipher
  { s with cipher := r.cipher, seq := { s.seq with t := r.t, u := r.u, ks := r.ks } }

/-- The address of the next input byte or chunk, `SRC_L + POS` (R35, R36). -/
def inputAddr (s : State) : Nat := s.seq.srcL.toNat + s.seq.pos.toNat

/-- The address of the next output byte or chunk, `DST_L + POS` (R35, R36). -/
def outputAddr (s : State) : Nat := s.seq.dstL.toNat + s.seq.pos.toNat

/-- POS advances by `n` (R35, R36). -/
def State.advancePos (s : State) (n : Nat) : State :=
  { s with seq := { s.seq with pos := s.seq.pos + BitVec.ofNat 32 n } }

/-- One byte of the byte path: a keystream step, a 1-byte read, the exclusive or, a 1-byte write (R35, R123, R126). -/
def byteStep (s : State) : State :=
  let s1 := stepKeystream s
  let s2 := s1.access .read (inputAddr s1) 1
  let x := s1.mem.read (inputAddr s1)
  (s2.storeByte (outputAddr s2) (x ^^^ s2.seq.ks)).advancePos 1

/-- `n` keystream steps in order, and the bytes they yield, first one first (R145). -/
def gatherKeystream : Nat → State → List Byte × State
  | 0, s => ([], s)
  | n + 1, s =>
    let s1 := stepKeystream s
    let r := gatherKeystream n s1
    (s1.seq.ks :: r.1, r.2)

/-- KW takes the packed keystream word (R143, R145). -/
def State.setKw (s : State) (kw : Nat) : State := { s with seq := { s.seq with kw := kw } }

/-- IW takes the input word (R145). -/
def State.setIw (s : State) (iw : Nat) : State := { s with seq := { s.seq with iw := iw } }

/-- One chunk of the wide path: `W` keystream steps, packing, one `W`-byte read, one `W`-byte write of the exclusive or
(R36, R145). -/
def chunkStep (s : State) : State :=
  let W := s.cfg.chunkBytes
  let r := gatherKeystream W s
  let s1 := r.2.setKw (pack s.cfg.byteOrder W fun k => r.1.getD k 0)
  let s2 := (s1.access .read (inputAddr s1) W).setIw (s1.mem.readWord s1.cfg.byteOrder W (inputAddr s1))
  (s2.storeWord (outputAddr s2) (s2.seq.iw ^^^ s2.seq.kw)).advancePos W

/-- The phase a PROC of LEN > 0 starts in (R33, R141). -/
def startPhase (cfg : Config) (src dst len : Word) : Phase :=
  if wideSelected cfg src dst len then .wide else .byte

/-- Acceptance of a PROC with LEN > 0: the operands are latched, POS <- 0, and the path is chosen (R33, R141). -/
def latchProc (src dst len : Word) (s : State) : State :=
  { s with
    seq := { s.seq with
      phase := startPhase s.cfg src dst len
      srcL := src
      dstL := dst
      lenL := len
      pos := 0 } }

/-- The transfers of an accepted PROC: its chunks, then its tail byte by byte (R121, R142, R144). The straps choose how the
bytes are cut into accesses and in which order a word is packed; what is left in S, CA, CB and memory is the same for all
of them (R150: `xorBytes` in Laws/Stream.lean has no strap in it). -/
def transfer (src dst len : Word) (s : State) : State :=
  let n := chunkCount s.cfg src dst len
  byteStep^[len.toNat - n * s.cfg.chunkBytes] (chunkStep^[n] (latchProc src dst len s))

/-- PROC (R121): the checks, the zero-length exit (R124), then the transfers. -/
def execProc (src dst len : Word) (s : State) : Host.Outcome State Fault Refusal :=
  match procCheck s.cfg s.valid src dst len with
  | some c => .next (s.raise c)
  | none => if len = 0 then .next (s.respond .ok) else .next ((transfer src dst len s).respond .ok)

end Sys2Proof.Machine
end

