-- ==== Sys2Proof/Machine/Dispatch.lean ====
section
/-! DEFINITION. The meaning of each command, one arm per constructor of Instr. -/

namespace Sys2Proof.Machine

/-- The outcome of one command, run to completion (R10). -/
def exec (i : Instr) (s : State) : Host.Outcome State Fault Refusal :=
  match i with
  | .sched kaddr klen => Sys2Proof.Machine.execSched kaddr klen s
  | .proc src dst len => Sys2Proof.Machine.execProc src dst len s

end Sys2Proof.Machine
end

