-- ==== Sys2Proof/Machine/Sequencer.lean ====
section
/-! DEFINITION. The phase machine of the engine, its finer step: acceptance of a descriptor in IDLE and one micro-step
in KSA, WIDE and BYTE (R33 to R37), and a reset that arrives while a command runs (R193). -/

namespace Sys2Proof.Machine

/-- IDLE, a command arrives: check, then stay idle with a response or latch and leave IDLE (R33). -/
def acceptInstr (i : Instr) (s : State) : State :=
  match i with
  | .sched kaddr klen =>
    match schedCheck s.cfg kaddr klen with
    | some c => s.raise c
    | none => latchSched kaddr klen s
  | .proc src dst len =>
    match procCheck s.cfg s.valid src dst len with
    | some c => s.raise c
    | none => if len = 0 then s.respond .ok else latchProc src dst len s

/-- IDLE, a descriptor arrives: decode it first (R33, R165). -/
def accept (D : Descriptor) (s : State) : State :=
  match decode D with
  | .legal i => acceptInstr i s
  | .illegal _ => s.raise .illegalCommand

/-- PHASE takes a new value (R33). -/
def State.enterPhase (s : State) (p : Phase) : State := { s with seq := { s.seq with phase := p } }

/-- The end of the chunks, `(LEN_L div W)·W` (R33). -/
def wideEnd (s : State) : Nat := s.seq.lenL.toNat / s.cfg.chunkBytes * s.cfg.chunkBytes

/-- KSA: one key-schedule step; after the 256th the command completes (R33, R34). -/
def tickKsa (s : State) : State :=
  let s1 := ksaStep s
  if s1.seq.i = 256 then finishSched s1 else s1

/-- WIDE: one chunk; after the last, the command completes or goes on to the tail (R33, R36). -/
def tickWide (s : State) : State :=
  let s1 := chunkStep s
  if s1.seq.pos.toNat = wideEnd s1 then
    if s1.seq.pos = s1.seq.lenL then s1.respond .ok else s1.enterPhase .byte
  else s1

/-- BYTE: one byte; after the last the command completes (R33, R35). -/
def tickByte (s : State) : State :=
  let s1 := byteStep s
  if s1.seq.pos = s1.seq.lenL then s1.respond .ok else s1

/-- One step of the phase machine: the phase says which micro-step comes next; an idle engine waits (R30, R33, R179). -/
def tick (s : State) : State :=
  match s.seq.phase with
  | .idle => s
  | .ksa => tickKsa s
  | .wide => tickWide s
  | .byte => tickByte s

/-- The number of micro-steps of a command, counted from its acceptance (R33, R201). -/
def tickCount (i : Instr) (s : State) : Nat :=
  match i with
  | .sched kaddr klen => if schedCheck s.cfg kaddr klen = none then 256 else 0
  | .proc src dst len =>
    if procCheck s.cfg s.valid src dst len = none then
      let n := chunkCount s.cfg src dst len
      n + (len.toNat - n * s.cfg.chunkBytes)
    else 0

/-- A descriptor, and a reset after `n` micro-steps of its command, before its response: the command is abandoned where it
stands and no response is delivered for it (R193; notes/assumptions/8.md). With `n` at or above the command's number of
micro-steps all its writes are done. -/
def abandon (D : Descriptor) (n : Nat) (s : State) : State :=
  { (tick^[n] (accept D s)).hostReset with responses := s.responses }

end Sys2Proof.Machine
end

