-- ==== Sys2Proof/Machine/Issue.lean ====
section
/-! DEFINITION. What each event of the host does to an idle engine (R12): a descriptor is decoded and run to completion
(R10, R165), a byte of memory is written, the engine is reset (R190, R193). -/

namespace Sys2Proof.Machine

/-- A descriptor on an idle engine: a legal one runs to completion, an illegal one raises IllegalCommand (R10, R164). -/
def runDescriptor (D : Descriptor) (s : State) : Host.Outcome State Fault Refusal :=
  match decode D with
  | .legal i => exec i s
  | .illegal _ => .next (s.raise .illegalCommand)

/-- The host writes one byte of memory between commands; an address at or above MEM_BYTES does not exist (R12, R50). -/
def hostWrite (a : Word) (b : Byte) (s : State) : Host.Outcome State Fault Refusal :=
  if a.toNat < s.cfg.memBytes then .next { s with mem := s.mem.write a.toNat b } else .fault (.noSuchAddress a.toNat)

/-- The effect of one event of the host on an idle engine (R12). -/
def handle (e : HostEvent) (s : State) : Host.Outcome State Fault Refusal :=
  match e with
  | .command D => runDescriptor D s
  | .write a b => hostWrite a b s
  | .reset => .next s.hostReset
  | .commandReset D n => .next (abandon D n s)

end Sys2Proof.Machine
end

