-- ==== Sys2Proof/Machine/Step.lean ====
section
/-! DEFINITION. One step of the machine. The architectural step is one command (R10): an idle engine takes the host's
next event from its port, and waits when there is none (R179). An engine that is not idle takes no event (R33) and makes
one micro-step; `step` itself never leaves a command half done. -/

namespace Sys2Proof.Machine

/-- One step (R10, R33, R179). -/
def step (s : State) : Host.Outcome State Fault Refusal :=
  match s.seq.phase with
  | .idle =>
    match s.port with
    | [] => .next s
    | e :: rest => handle e { s with port := rest }
  | .ksa => .next (tick s)
  | .wide => .next (tick s)
  | .byte => .next (tick s)

/-- The state with a table word's descriptor next on the command port of an idle engine, so that the next step runs
exactly it (R11, R80; notes/assumptions/6.md). -/
def State.withFetchWord (s : State) (nbits w : Nat) : State :=
  { s with
    port := .command (BitVec.ofNat 128 (w % 2 ^ nbits)) :: s.port
    seq := { s.seq with phase := .idle } }

end Sys2Proof.Machine
end

