-- ==== Sys2Proof/Safety.lean ====
section
/-! DEFINITION. The terms claims use: the invariant of the machine, the reference results of the two commands as
functions of values, and the access trace of a command. -/

namespace Sys2Proof.Machine

/-! ### Reference results -/

/-- "each value 0–255 exactly once" (R21, R22). -/
def Table.IsPermutation (T : Table) : Prop := ∀ v : Byte, ∃! i : Byte, T.entry i = v

/-- The table and `id2` after `n` key-schedule steps on the key bytes `key 0 .. key (klen − 1)`: step `i` uses key byte
`i mod klen` (R103, R105). -/
def scheduleAfter (key : Nat → Byte) (klen : Nat) : Nat → Table × Byte
  | 0 => (Table.identity, 0)
  | n + 1 =>
    let r := scheduleAfter key klen n
    let i := BitVec.ofNat 8 n
    let id2 := key (n % klen) + r.1.entry i + r.2
    (r.1.exchange i id2, id2)

/-- The table SCHED builds from a key (R101, R107). -/
def scheduleTable (key : Nat → Byte) (klen : Nat) : Table := (scheduleAfter key klen 256).1

/-- The cipher state SCHED builds from a key: the table, and both cursors 0 (R104). -/
def scheduled (key : Nat → Byte) (klen : Nat) : Cipher := { S := scheduleTable key klen, ca := 0, cb := 0 }

/-- The key of a SCHED: the bytes of memory from KADDR on (R100). -/
def keyAt (m : Memory) (kaddr : Word) : Nat → Byte := fun j => m.read (kaddr.toNat + j)

/-! ### What the host may ask -/

/-- A SCHED within the contract: the key length is 1 .. 256 and the key lies in memory (R106, R168). -/
def State.AcceptsSched (s : State) (kaddr klen : Word) : Prop :=
  1 ≤ klen.toNat ∧ klen.toNat ≤ 256 ∧ kaddr.toNat + klen.toNat ≤ s.cfg.memBytes

/-- The ranges `[a, a + n)` and `[b, b + n)` are identical or share no byte (R64). -/
def ApartOrEqual (a b n : Word) : Prop :=
  a = b ∨ a.toNat + n.toNat ≤ b.toNat ∨ b.toNat + n.toNat ≤ a.toNat

/-- A PROC within the contract: the context is valid and, unless LEN = 0, both ranges lie in memory and are identical or
share no byte (R125). -/
def State.AcceptsProc (s : State) (src dst len : Word) : Prop :=
  s.valid = true ∧ (len = 0 ∨ (src.toNat + len.toNat ≤ s.cfg.memBytes ∧ dst.toNat + len.toNat ≤ s.cfg.memBytes ∧
    ApartOrEqual src dst len))

/-- Two states agree on what a command leaves: S, CA, CB, VALID, STATUS and every byte of memory (R150). -/
def State.SameResult (s t : State) : Prop :=
  s.cipher = t.cipher ∧ s.valid = t.valid ∧ s.status = t.status ∧ s.mem = t.mem

/-- Two states agree on everything that is not unspecified: the cipher state counts only while VALID = 1, the sequencer's
registers not at all (R32, R39). -/
structure State.Alike (s t : State) : Prop where
  cfg : s.cfg = t.cfg
  valid : s.valid = t.valid
  status : s.status = t.status
  mem : s.mem = t.mem
  bus : s.bus = t.bus
  responses : s.responses = t.responses
  cipher : s.valid = true → s.cipher = t.cipher

/-! ### Access traces (R60) -/

/-- The accesses of a successful SCHED, in order. -/
def schedTrace (kaddr klen : Word) : List Access :=
  (List.range 256).map fun i => { kind := .read, addr := kaddr.toNat + i % klen.toNat, width := 1 }

/-- The accesses of one transfer of `n` bytes at offset `p`. -/
def transferTrace (src dst : Word) (n p : Nat) : List Access :=
  [{ kind := .read, addr := src.toNat + p, width := n }, { kind := .write, addr := dst.toNat + p, width := n }]

/-- The accesses of a successful PROC, in order: the chunks, then the tail. -/
def procTrace (cfg : Config) (src dst len : Word) : List Access :=
  let n := chunkCount cfg src dst len
  let W := cfg.chunkBytes
  (List.range n).flatMap (fun c => transferTrace src dst W (c * W)) ++
    (List.range (len.toNat - n * W)).flatMap fun j => transferTrace src dst 1 (n * W + j)

/-- The accesses one command makes, in order: none if it faults or transfers nothing (R51, R60). -/
def commandTrace (i : Instr) (s : State) : List Access :=
  match i with
  | .sched kaddr klen => if schedCheck s.cfg kaddr klen = none then schedTrace kaddr klen else []
  | .proc src dst len =>
    if procCheck s.cfg s.valid src dst len = none ∧ len ≠ 0 then procTrace s.cfg src dst len else []

/-! ### The invariant -/

/-- The latched input and output ranges lie in memory and are disjoint or identical (R63, R64, R169). -/
def Sequencer.RangesLegal (q : Sequencer) (cfg : Config) : Prop :=
  rangeValid cfg q.srcL q.lenL = true ∧ rangeValid cfg q.dstL q.lenL = true ∧
    rangesOverlap q.srcL q.dstL q.lenL = false

/-- What holds of the sequencer in each phase (R31, R33). -/
def State.PhaseInv (s : State) : Prop :=
  match s.seq.phase with
  | .idle => True
  | .ksa =>
    s.seq.i.toNat < 256 ∧ s.seq.id1.toNat < s.seq.klenL.toNat ∧ s.seq.klenL.toNat ≤ 256 ∧
      s.seq.kaddrL.toNat + s.seq.klenL.toNat ≤ s.cfg.memBytes
  | .wide =>
    s.valid = true ∧ s.seq.RangesLegal s.cfg ∧
      wideSelected s.cfg s.seq.srcL s.seq.dstL s.seq.lenL = true ∧
      s.seq.pos.toNat % s.cfg.chunkBytes = 0 ∧ s.seq.pos.toNat + s.cfg.chunkBytes ≤ s.seq.lenL.toNat
  | .byte => s.valid = true ∧ s.seq.RangesLegal s.cfg ∧ s.seq.pos.toNat < s.seq.lenL.toNat

/-- The invariant of the machine. -/
structure State.Inv (s : State) : Prop where
  /-- The straps are legal (R8). -/
  cfgLegal : s.cfg.legal = true
  /-- Memory is in its canonical form. -/
  memWf : s.mem.wf
  /-- Every listed byte of memory lies in `0 .. MEM_BYTES − 1` (R50). -/
  memWithin : s.mem.within s.cfg.memBytes
  /-- With VALID = 1, and during key scheduling, the table is a permutation (R22). -/
  tablePermutation : s.valid = true ∨ s.seq.phase = .ksa → s.cipher.S.IsPermutation
  /-- STATUS is a response word whose VALID field is the flag (R27). -/
  statusForm : ∃ c, s.status = responseWord s.valid c
  /-- KW and IW hold `8·W` bits (R31). -/
  wordWidth : s.seq.kw < 2 ^ (8 * s.cfg.chunkBytes) ∧ s.seq.iw < 2 ^ (8 * s.cfg.chunkBytes)
  /-- The sequencer's registers are in range for the phase (R31, R33). -/
  phaseInv : s.PhaseInv

end Sys2Proof.Machine
end

