-- ==== Sys2Proof/Certificates/Slice0/Obligations.lean ====
section
/-! DEFINITION. The statements of this model, one per rule or group of rules of the spec. Where a docstring says
"derived", the rule it rests on is one the spec marks as its own inference. -/

open Sys2Proof
open Sys2Proof.Machine

/-! ### Encoding -/

/-- Decoding the encoding of any command gives the command back (30_encoding.md section 3, derived there). -/
def Obligations.DecodeOfEncode : Prop := ∀ i : Instr, decode (encode i) = .legal i

/-- Encoding what a legal descriptor decodes to gives the descriptor back (30_encoding.md section 3, derived there). -/
def Obligations.EncodeOfDecode : Prop := ∀ (D : Descriptor) (i : Instr), decode D = .legal i → encode i = D

/-- R84, R85: the four words of each command's descriptor and its mask and match; a descriptor that matches is nothing but
these words. -/
def Obligations.EncodingWords : Prop :=
  (∀ kaddr klen : Word, encode (.sched kaddr klen) = klen ++ (0 : Word) ++ kaddr ++ (1 : Word) ∧
    descriptorWord (encode (.sched kaddr klen)) 0 = 0x00000001 ∧
    descriptorWord (encode (.sched kaddr klen)) 1 = kaddr ∧
    descriptorWord (encode (.sched kaddr klen)) 2 = 0 ∧
    descriptorWord (encode (.sched kaddr klen)) 3 = klen ∧
    encode (.sched kaddr klen) &&& 0x00000000FFFFFFFF00000000FFFFFFFF#128 = 0x00000000000000000000000000000001#128 ∧
    ∀ D : Descriptor, D &&& 0x00000000FFFFFFFF00000000FFFFFFFF#128 = 0x00000000000000000000000000000001#128 →
      D = encode (.sched (descriptorWord D 1) (descriptorWord D 3))) ∧
  (∀ src dst len : Word, encode (.proc src dst len) = len ++ dst ++ src ++ (2 : Word) ∧
    descriptorWord (encode (.proc src dst len)) 0 = 0x00000002 ∧
    descriptorWord (encode (.proc src dst len)) 1 = src ∧
    descriptorWord (encode (.proc src dst len)) 2 = dst ∧
    descriptorWord (encode (.proc src dst len)) 3 = len ∧
    encode (.proc src dst len) &&& 0x000000000000000000000000FFFFFFFF#128 = 0x00000000000000000000000000000002#128 ∧
    ∀ D : Descriptor, D &&& 0x000000000000000000000000FFFFFFFF#128 = 0x00000000000000000000000000000002#128 →
      D = encode (.proc (descriptorWord D 1) (descriptorWord D 2) (descriptorWord D 3)))

/-- The decoder and the opcode table agree: a descriptor decodes to a row's command iff it matches the row, is illegal
iff it matches no row, and matches at most one (30_encoding.md section 6, derived there). -/
def Obligations.DecodeAgreesWithOpcodeTable : Prop :=
  ∀ D : Descriptor,
    ((∃ a n, decode D = .legal (.sched a n)) ↔ schedRow.fits D = true) ∧
    ((∃ a b n, decode D = .legal (.proc a b n)) ↔ procRow.fits D = true) ∧
    ((∃ why, decode D = .illegal why) ↔ (schedRow.fits D = false ∧ procRow.fits D = false)) ∧
    ¬ (schedRow.fits D = true ∧ procRow.fits D = true)

/-- A few descriptors written out from the encoding (95_test_vectors.md V19). -/
def Obligations.SampleDescriptors : Prop :=
  decode 0x00000003000000000000010000000001#128 = .legal (.sched 0x100 3) ∧
  decode 0x00000009000003000000020000000002#128 = .legal (.proc 0x200 0x300 9) ∧
  decode 0x00000003000000000000010000000101#128 = .illegal .reservedBits ∧
  decode 0x00000003000000010000010000000001#128 = .illegal .reservedWord ∧
  decode 0x00000000000000000000000000000003#128 = .illegal .unknownOpcode

/-- R90: the pseudo-instructions are exact spellings of `proc`, whatever their operands. -/
def Obligations.PseudoInstructionsAreProc : Prop :=
  ∀ src dst buf len : Nat,
    assemble (.enc src dst len) = assemble (.proc src dst len) ∧
    assemble (.dec src dst len) = assemble (.proc src dst len) ∧
    assemble (.proci buf len) = assemble (.proc buf buf len)

/-- The assembler rejects exactly the lines with an operand that does not fit in 32 bits, and what it emits decodes to the
command written (30_encoding.md section 5). -/
def Obligations.AssembledLineDecodes : Prop :=
  ∀ src dst len : Nat,
    (assemble (.proc src dst len) = none ↔ (2 ^ 32 ≤ src ∨ 2 ^ 32 ≤ dst ∨ 2 ^ 32 ≤ len)) ∧
    (∀ D, assemble (.proc src dst len) = some D →
      ∃ s d n : Word, decode D = .legal (.proc s d n) ∧ s.toNat = src ∧ d.toNat = dst ∧ n.toNat = len) ∧
    (assemble (.sched src len) = none ↔ (2 ^ 32 ≤ src ∨ 2 ^ 32 ≤ len)) ∧
    (∀ D, assemble (.sched src len) = some D →
      ∃ a n : Word, decode D = .legal (.sched a n) ∧ a.toNat = src ∧ n.toNat = len)

/-! ### The step -/

/-- An idle engine whose next event is a legal descriptor runs the decoded command, with the event taken from the port
(00_scope.md section 5); and so does an engine with a table word placed for it. That a program comes to run from the
command port, and that a table word is the descriptor itself, are the model's (DEDUCED, notes/assumptions/6.md and
notes/assumptions/13.md). -/
def Obligations.StepRunsDecodedCommand : Prop :=
  (∀ (s : State) (D : Descriptor) (rest : List HostEvent) (i : Instr), s.seq.phase = .idle →
    s.port = .command D :: rest → decode D = .legal i → step s = exec i { s with port := rest }) ∧
  (∀ (s : State) (i : Instr), s.seq.phase = .idle → step (s.withFetchWord 128 (encode i).toNat) = exec i s)

/-- An idle engine with nothing on its port waits, and its context survives (60_exceptions.md section 6; that
a program comes from the port is the model's, DEDUCED, notes/assumptions/6.md). -/
def Obligations.IdleEngineWaits : Prop :=
  ∀ s : State, s.seq.phase = .idle → s.port = [] → step s = .next s

/-- A step of an engine that is not idle is one micro-step of its phase, and it takes no event from its port: a second
command waits for the first response (10_state.md section 7, 70_reset_and_hazards.md section 3). The spec says this of
descriptors; that the port's other events wait too, a reset included, is the model's choice (notes/assumptions/8.md,
notes/assumptions/9.md, notes/assumptions/11.md): a reset during a command is the event commandReset. -/
def Obligations.BusyEngineTakesNoEvent : Prop :=
  ∀ s : State, s.seq.phase ≠ .idle → step s = .next (tick s) ∧ (tick s).port = s.port

/-- R86, R164: a descriptor whose OPC is unknown, whose RSV0 is not zero, or that is a SCHED with RSV2 not zero raises
IllegalCommand, code 5, with no change to S, CA, CB, VALID or memory and no memory access, whatever its operand fields
hold; every other descriptor is legal. -/
def Obligations.IllegalDescriptorRaises : Prop :=
  ∀ (D : Descriptor) (s : State),
    if (D.extractLsb' 0 8 ≠ 1 ∧ D.extractLsb' 0 8 ≠ 2) ∨ D.extractLsb' 8 24 ≠ 0 ∨
        (D.extractLsb' 0 8 = 1 ∧ D.extractLsb' 64 32 ≠ 0) then
      ∃ t, runDescriptor D s = .next t ∧ statusCode t.status = 5 ∧ t.cipher = s.cipher ∧ t.valid = s.valid ∧
        t.mem = s.mem ∧ t.bus = s.bus
    else ∃ i, decode D = .legal i

/-- R165: on every descriptor and in every state the checks are made in the fixed order and the first that fails decides
the response code. -/
def Obligations.CheckOrder : Prop :=
  ∀ (D : Descriptor) (s : State), ∃ t, runDescriptor D s = .next t ∧
    (statusCode t.status).toNat =
      (let opc := (D.extractLsb' 0 8).toNat
       let rsv0 := (D.extractLsb' 8 24).toNat
       let a1 := (D.extractLsb' 32 32).toNat
       let a2 := (D.extractLsb' 64 32).toNat
       let n := (D.extractLsb' 96 32).toNat
       if rsv0 ≠ 0 ∨ (opc ≠ 1 ∧ opc ≠ 2) ∨ (opc = 1 ∧ a2 ≠ 0) then 5
       else if opc = 1 then
         if n = 0 ∨ 256 < n then 1 else if s.cfg.memBytes < a1 + n then 3 else 0
       else
         if s.valid = false then 2
         else if n = 0 then 0
         else if s.cfg.memBytes < a1 + n ∨ s.cfg.memBytes < a2 + n then 3
         else if a1 ≠ a2 ∧ a1 < a2 + n ∧ a2 < a1 + n then 4
         else 0)

/-! ### The key scheduler -/

/-- R106: a key length of 0 or of 257 and more raises InvalidKeyLength, whatever the address; the lengths 1 and 256 are
accepted where the key lies in memory. The length is not clamped. -/
def Obligations.InvalidKeyLengthRaised : Prop :=
  ∀ (s : State) (kaddr klen : Word),
    (klen.toNat = 0 ∨ 257 ≤ klen.toNat → ∃ t, exec (.sched kaddr klen) s = .next t ∧ statusCode t.status = 1 ∧
      t.cipher = s.cipher ∧ t.valid = s.valid ∧ t.mem = s.mem ∧ t.bus = s.bus) ∧
    ((klen.toNat = 1 ∨ klen.toNat = 256) → kaddr.toNat + klen.toNat ≤ s.cfg.memBytes →
      ∃ t, exec (.sched kaddr klen) s = .next t ∧ statusCode t.status = 0)

/-- R104 (completion of SCHED): a SCHED within the contract answers OK and leaves both cursors 0 and VALID = 1, with the
table that the identity becomes by the 256 key-schedule steps on the key bytes; memory is unchanged. -/
def Obligations.SchedBuildsContext : Prop :=
  ∀ (s : State) (kaddr klen : Word), s.AcceptsSched kaddr klen →
    ∃ t, exec (.sched kaddr klen) s = .next t ∧
      t.cipher.S = scheduleTable (keyAt s.mem kaddr) klen.toNat ∧ t.cipher.ca = 0 ∧ t.cipher.cb = 0 ∧
      t.valid = true ∧ t.status = 0x00000010 ∧ t.responses = 0x00000010 :: s.responses ∧ t.mem = s.mem

/-- R103: one key-schedule step. One byte of the key is read at `KADDR + id1`; the new `id2`, the swap that uses it, the
advance of `id1`, which stays in `0 .. KLEN − 1`, and of the step number; the rest of the table, CA, CB, VALID and memory
are unchanged. -/
def Obligations.KeyScheduleStep : Prop :=
  ∀ s : State,
    let k := s.mem.read (s.seq.kaddrL.toNat + s.seq.id1.toNat)
    let i : Byte := s.seq.i.setWidth 8
    let t := ksaStep s
    t.seq.id2.toNat = (k.toNat + (s.cipher.S.entry i).toNat + s.seq.id2.toNat) % 256 ∧
    t.cipher.S.entry i = s.cipher.S.entry t.seq.id2 ∧ t.cipher.S.entry t.seq.id2 = s.cipher.S.entry i ∧
    (∀ j, j ≠ i → j ≠ t.seq.id2 → t.cipher.S.entry j = s.cipher.S.entry j) ∧
    t.seq.id1.toNat = (if s.seq.id1.toNat + 1 = s.seq.klenL.toNat then 0 else (s.seq.id1.toNat + 1) % 256) ∧
    (s.seq.id1.toNat < s.seq.klenL.toNat → s.seq.klenL.toNat ≤ 256 → t.seq.id1.toNat < s.seq.klenL.toNat) ∧
    t.seq.i.toNat = (s.seq.i.toNat + 1) % 512 ∧
    t.bus = { kind := .read, addr := s.seq.kaddrL.toNat + s.seq.id1.toNat, width := 1 } :: s.bus ∧
    t.cipher.ca = s.cipher.ca ∧ t.cipher.cb = s.cipher.cb ∧ t.valid = s.valid ∧ t.mem = s.mem

/-- What SCHED leaves unchanged: every byte of memory, the straps, the port, the PROC side of the sequencer (SRC_L, DST_L,
LEN_L, POS, T, U, KS, KW, IW), and, where it faults, the cipher state, VALID and every sequencer register but PHASE
(10_state.md sections 7 and 10; that the sequencer's registers keep their contents between commands is the model's
choice, notes/assumptions/17.md, and port and draws are its own fields, notes/assumptions/10.md). -/
def Obligations.SchedFrame : Prop :=
  ∀ (s t : State) (kaddr klen : Word), exec (.sched kaddr klen) s = .next t →
    (∀ a, t.mem.read a = s.mem.read a) ∧ t.cfg = s.cfg ∧ t.port = s.port ∧ t.draws = s.draws ∧
    t.seq.srcL = s.seq.srcL ∧ t.seq.dstL = s.seq.dstL ∧ t.seq.lenL = s.seq.lenL ∧ t.seq.pos = s.seq.pos ∧
    t.seq.t = s.seq.t ∧ t.seq.u = s.seq.u ∧ t.seq.ks = s.seq.ks ∧ t.seq.kw = s.seq.kw ∧ t.seq.iw = s.seq.iw ∧
    (¬ s.AcceptsSched kaddr klen → t.cipher = s.cipher ∧ t.valid = s.valid ∧ t.seq = { s.seq with phase := .idle } ∧
      t.bus = s.bus)

/-- After a SCHED within the contract the table is a permutation (40_key_schedule.md section 4, derived there). -/
def Obligations.SchedTableIsPermutation : Prop :=
  ∀ (s t : State) (kaddr klen : Word), s.AcceptsSched kaddr klen → exec (.sched kaddr klen) s = .next t →
    t.cipher.S.IsPermutation

/-- R107: the state SCHED builds depends on the key bytes and their number only: not on the address, the previous context,
the straps or the rest of memory. -/
def Obligations.SchedDependsOnKeyOnly : Prop :=
  ∀ (s u t v : State) (kaddr kaddr' klen : Word), s.AcceptsSched kaddr klen → u.AcceptsSched kaddr' klen →
    (∀ j < klen.toNat, s.mem.read (kaddr.toNat + j) = u.mem.read (kaddr'.toNat + j)) →
    exec (.sched kaddr klen) s = .next t → exec (.sched kaddr' klen) u = .next v → t.cipher = v.cipher

/-- Two keys that agree on the byte of each of the 256 steps build the same state, whatever their lengths; a key and its
periodic repetition are such keys (40_key_schedule.md section 4, derived there). -/
def Obligations.PeriodicKeysAgree : Prop :=
  ∀ (s u t v : State) (kaddr klen kaddr' klen' : Word), s.AcceptsSched kaddr klen → u.AcceptsSched kaddr' klen' →
    (∀ i < 256, s.mem.read (kaddr.toNat + i % klen.toNat) = u.mem.read (kaddr'.toNat + i % klen'.toNat)) →
    exec (.sched kaddr klen) s = .next t → exec (.sched kaddr' klen') u = .next v → t.cipher = v.cipher

/-! ### The stream processor -/

/-- R122: one keystream step, value by value. -/
def Obligations.KeystreamStepValues : Prop :=
  ∀ c : Cipher,
    let r := keystreamStep c
    r.cipher.ca.toNat = (c.ca.toNat + 1) % 256 ∧
    r.t = c.S.entry r.cipher.ca ∧
    r.cipher.cb.toNat = (r.t.toNat + c.cb.toNat) % 256 ∧
    r.u = c.S.entry r.cipher.cb ∧
    r.cipher.S.entry r.cipher.ca = r.u ∧ r.cipher.S.entry r.cipher.cb = r.t ∧
    (∀ i, i ≠ r.cipher.ca → i ≠ r.cipher.cb → r.cipher.S.entry i = c.S.entry i) ∧
    (∀ i : Byte, i.toNat = (r.t.toNat + r.u.toNat) % 256 → r.ks = r.cipher.S.entry i)

/-- The corner cases of the keystream step: equal cursors leave the table as it was, and an index equal to a cursor reads
the table after the swap (41_stream_process.md section 5, derived there). -/
def Obligations.KeystreamStepCorners : Prop :=
  ∀ c : Cipher,
    let r := keystreamStep c
    (r.cipher.ca = r.cipher.cb → r.t = r.u ∧ r.cipher.S = c.S ∧ r.ks = c.S.entry (r.t + r.t)) ∧
    (r.t + r.u = r.cipher.ca → r.ks = r.u) ∧ (r.t + r.u = r.cipher.cb → r.ks = r.t)

/-- R35, R36: one step in BYTE is a keystream step, a 1-byte read, the exclusive or, a 1-byte write and POS + 1; one step in
WIDE is `W` keystream steps, the packing into KW, one `W`-byte read into IW, one `W`-byte write of `IW xor KW` and
POS + W. -/
def Obligations.MicroStepsOfProc : Prop :=
  ∀ s : State,
    let a := s.seq.srcL.toNat + s.seq.pos.toNat
    let b := s.seq.dstL.toNat + s.seq.pos.toNat
    let W := s.cfg.chunkBytes
    let order := s.cfg.byteOrder
    let r := keystreamStep s.cipher
    let t := byteStep s
    let c := chunkStep s
    (t.cipher = r.cipher ∧ t.seq.t = r.t ∧ t.seq.u = r.u ∧ t.seq.ks = r.ks ∧
      t.mem = s.mem.write b (s.mem.read a ^^^ r.ks) ∧
      t.bus = { kind := .write, addr := b, width := 1 } :: { kind := .read, addr := a, width := 1 } :: s.bus ∧
      t.seq.pos.toNat = (s.seq.pos.toNat + 1) % 2 ^ 32) ∧
    (c.cipher = s.cipher.advance W ∧ c.seq.kw = pack order W s.cipher.keystream ∧
      c.seq.iw = s.mem.readWord order W a ∧ c.mem = s.mem.writeWord order W b (c.seq.iw ^^^ c.seq.kw) ∧
      c.bus = { kind := .write, addr := b, width := W } :: { kind := .read, addr := a, width := W } :: s.bus ∧
      c.seq.pos.toNat = (s.seq.pos.toNat + W) % 2 ^ 32)

/-- R167: PROC while VALID = 0 raises NoState, whatever SRC, DST and LEN are. -/
def Obligations.NoStateRaised : Prop :=
  ∀ (s : State) (src dst len : Word), s.valid = false →
    ∃ t, exec (.proc src dst len) s = .next t ∧ t.status = 0x00000002 ∧ t.cipher = s.cipher ∧ t.valid = false ∧
      t.mem = s.mem ∧ t.bus = s.bus

/-- R124: PROC with LEN = 0 on a valid context answers OK, makes no memory access and leaves S, CA, CB and memory as they
were, whatever SRC and DST are; on an invalid context it raises NoState. -/
def Obligations.ZeroLengthProc : Prop :=
  ∀ (s : State) (src dst : Word),
    (s.valid = true → ∃ t, exec (.proc src dst 0) s = .next t ∧ t.status = 0x00000010 ∧ t.cipher = s.cipher ∧
      t.mem = s.mem ∧ t.bus = s.bus) ∧
    (s.valid = false → ∃ t, exec (.proc src dst 0) s = .next t ∧ statusCode t.status = 2)

/-- R168: AddrRange is raised by SCHED of a legal key length when the key does not lie in memory, and by PROC on a valid
context with LEN > 0 when either range does not; PROC with LEN = 0 never raises it. -/
def Obligations.AddrRangeRaised : Prop :=
  ∀ s : State,
    (∀ kaddr klen : Word, 1 ≤ klen.toNat → klen.toNat ≤ 256 → s.cfg.memBytes < kaddr.toNat + klen.toNat →
      ∃ t, exec (.sched kaddr klen) s = .next t ∧ statusCode t.status = 3) ∧
    (∀ src dst len : Word, s.valid = true → len ≠ 0 →
      (s.cfg.memBytes < src.toNat + len.toNat ∨ s.cfg.memBytes < dst.toNat + len.toNat) →
      ∃ t, exec (.proc src dst len) s = .next t ∧ statusCode t.status = 3) ∧
    (∀ src dst : Word, ∃ t, exec (.proc src dst 0) s = .next t ∧ statusCode t.status ≠ 3)

/-- R169: Overlap is raised by PROC on a valid context with both ranges in memory when they share a byte without
coinciding; disjoint ranges and SRC = DST are accepted. SCHED never raises it. -/
def Obligations.OverlapRaised : Prop :=
  ∀ s : State,
    (∀ src dst len : Word, s.valid = true → len ≠ 0 → src.toNat + len.toNat ≤ s.cfg.memBytes →
      dst.toNat + len.toNat ≤ s.cfg.memBytes →
      ∃ t, exec (.proc src dst len) s = .next t ∧
        (statusCode t.status = 4 ↔ src ≠ dst ∧ ∃ p < len.toNat, ∃ q < len.toNat,
          src.toNat + p = dst.toNat + q) ∧
        (statusCode t.status = 0 ↔ src = dst ∨ ∀ p < len.toNat, ∀ q < len.toNat,
          src.toNat + p ≠ dst.toNat + q)) ∧
    (∀ kaddr klen : Word, ∃ t, exec (.sched kaddr klen) s = .next t ∧ statusCode t.status ≠ 4)

/-- R123, R127 (completion of PROC): a PROC within the contract answers OK, advances S, CA, CB by exactly LEN
keystream steps, and leaves byte `p` of the output the exclusive or of byte `p` of the input and keystream byte `p`, every
other byte of memory, VALID and the straps unchanged. -/
def Obligations.ProcTransformsBuffer : Prop :=
  ∀ (s : State) (src dst len : Word), s.mem.wf → s.AcceptsProc src dst len →
    ∃ t, exec (.proc src dst len) s = .next t ∧ t.status = 0x00000010 ∧ t.valid = s.valid ∧ t.cfg = s.cfg ∧
      t.cipher = s.cipher.advance len.toNat ∧ t.cipher.ca.toNat = (s.cipher.ca.toNat + len.toNat) % 256 ∧
      (∀ p < len.toNat,
        t.mem.read (dst.toNat + p) = s.mem.read (src.toNat + p) ^^^ s.cipher.keystream p) ∧
      (∀ a, (a < dst.toNat ∨ dst.toNat + len.toNat ≤ a) → t.mem.read a = s.mem.read a)

/-- What PROC leaves unchanged: VALID, the straps, the port, the SCHED side of the sequencer (I, ID1, ID2, KADDR_L,
KLEN_L), every byte outside `DST .. DST+LEN−1`; KW and IW on the byte path; and, where it faults or LEN = 0, all of
memory, the cipher state and every sequencer register but PHASE (10_state.md sections 7 and 10; that the sequencer's
registers keep their contents between commands is the model's choice, notes/assumptions/17.md, and port and draws are its
own fields, notes/assumptions/10.md). -/
def Obligations.ProcFrame : Prop :=
  ∀ (s t : State) (src dst len : Word), exec (.proc src dst len) s = .next t →
    t.valid = s.valid ∧ t.cfg = s.cfg ∧ t.port = s.port ∧ t.draws = s.draws ∧
    t.seq.i = s.seq.i ∧ t.seq.id1 = s.seq.id1 ∧ t.seq.id2 = s.seq.id2 ∧ t.seq.kaddrL = s.seq.kaddrL ∧
    t.seq.klenL = s.seq.klenL ∧
    (∀ a, (a < dst.toNat ∨ dst.toNat + len.toNat ≤ a) → t.mem.read a = s.mem.read a) ∧
    (wideSelected s.cfg src dst len = false → t.seq.kw = s.seq.kw ∧ t.seq.iw = s.seq.iw) ∧
    (¬ s.AcceptsProc src dst len ∨ len = 0 → t.cipher = s.cipher ∧ t.mem = s.mem ∧ t.bus = s.bus ∧
      t.seq = { s.seq with phase := .idle })

/-- Streaming: one PROC of `a + b` bytes, and a PROC of `a` bytes followed by one of the next `b` bytes, are both accepted
and leave the same S, CA, CB, VALID, STATUS and memory (41_stream_process.md section 6, for one split; any partition is repeated splitting). -/
def Obligations.SplitProcSameResult : Prop :=
  ∀ (s : State) (src dst a b len : Word), s.cfg.legal = true → s.AcceptsProc src dst len →
    len.toNat = a.toNat + b.toNat →
    ∃ t t1 t2, exec (.proc src dst len) s = .next t ∧ exec (.proc src dst a) s = .next t1 ∧
      exec (.proc (src + a) (dst + a) b) t1 = .next t2 ∧ t2.SameResult t

/-- Streaming equivalence: the bytes produced do not depend on where the buffers lie, on alignment, on the straps or on the split: a run of
two PROC commands over a stream produces the bytes of one PROC over it (41_stream_process.md section 6, derived there). -/
def Obligations.StreamingEquivalence : Prop :=
  ∀ (s u t u1 u2 : State) (src dst len src1 dst1 a src2 dst2 b : Word),
    s.mem.wf → u.mem.wf → u.cipher = s.cipher → len.toNat = a.toNat + b.toNat →
    s.AcceptsProc src dst len → exec (.proc src dst len) s = .next t →
    u.AcceptsProc src1 dst1 a → exec (.proc src1 dst1 a) u = .next u1 →
    u1.AcceptsProc src2 dst2 b → exec (.proc src2 dst2 b) u1 = .next u2 →
    (∀ p < a.toNat, u.mem.read (src1.toNat + p) = s.mem.read (src.toNat + p)) →
    (∀ p < b.toNat, u1.mem.read (src2.toNat + p) = s.mem.read (src.toNat + a.toNat + p)) →
    u2.cipher = t.cipher ∧
    (∀ p < a.toNat, u1.mem.read (dst1.toNat + p) = t.mem.read (dst.toNat + p)) ∧
    (∀ p < b.toNat, u2.mem.read (dst2.toNat + p) = t.mem.read (dst.toNat + a.toNat + p))

/-- Self-inverse: `sched K; proc A, B, n; sched K; proc B, C, n` restores the input at C, where the key bytes are not
overwritten in between (41_stream_process.md section 6, derived there). -/
def Obligations.SelfInverse : Prop :=
  ∀ (s : State) (kaddr klen A B C len : Word), s.cfg.legal = true → s.mem.wf → s.AcceptsSched kaddr klen →
    A.toNat + len.toNat ≤ s.cfg.memBytes → B.toNat + len.toNat ≤ s.cfg.memBytes →
    C.toNat + len.toNat ≤ s.cfg.memBytes → ApartOrEqual A B len → ApartOrEqual B C len →
    (kaddr.toNat + klen.toNat ≤ B.toNat ∨ B.toNat + len.toNat ≤ kaddr.toNat) →
    ∃ t1 t2 t3 t4, exec (.sched kaddr klen) s = .next t1 ∧ exec (.proc A B len) t1 = .next t2 ∧
      exec (.sched kaddr klen) t2 = .next t3 ∧ exec (.proc B C len) t3 = .next t4 ∧
      t2.status = 0x00000010 ∧ t4.status = 0x00000010 ∧
      ∀ p < len.toNat, t4.mem.read (C.toNat + p) = s.mem.read (A.toNat + p)

/-- The keystream does not depend on the data: two PROC commands of one length from one cipher state leave the same cipher
state, whatever memory holds (41_stream_process.md section 6, derived there). -/
def Obligations.KeystreamIgnoresData : Prop :=
  ∀ (s u t v : State) (src dst src' dst' len : Word), s.cipher = u.cipher → s.AcceptsProc src dst len →
    u.AcceptsProc src' dst' len → exec (.proc src dst len) s = .next t → exec (.proc src' dst' len) u = .next v →
    t.cipher = v.cipher

/-- R25: the result of a command is a function of the cipher state, VALID, the descriptor, the straps and memory, and of
nothing else: not of the key, of the commands that ran before, or of what the sequencer's registers held. The straps stay
equal, so the same holds of every later command. -/
def Obligations.ResultDependsOnContextOnly : Prop :=
  ∀ (s u : State) (i : Instr), s.cipher = u.cipher → s.valid = u.valid → s.cfg = u.cfg → s.mem = u.mem →
    ∃ t v, exec i s = .next t ∧ exec i u = .next v ∧ t.SameResult v ∧ t.cfg = v.cfg

/-- No command reads an unspecified value: while VALID = 0 neither S, CA, CB nor, ever, a register of the sequencer shows
in what a command does. Two engines that agree on everything else stay so after any descriptor, the cipher state included
once VALID = 1 (10_state.md sections 7 and 9). -/
def Obligations.UnspecifiedIsNeverRead : Prop :=
  ∀ (s u : State) (D : Descriptor), s.Alike u → ∃ t v, runDescriptor D s = .next t ∧ runDescriptor D u = .next v ∧
    t.Alike v

/-! ### The wide path -/

/-- The equivalence invariant: for every context, every memory and every command, S, CA, CB, VALID, STATUS and every byte
of memory are the same for every value of WIDE_EN, CHUNK_BYTES and BYTE_ORDER (42_wide_word.md section 5, whose rule for
the engine is derived there). -/
def Obligations.WidePathEqualsBytePath : Prop :=
  ∀ (s : State) (i : Instr) (c : Config), s.cfg.legal = true → c.legal = true → c.memBytes = s.cfg.memBytes →
    ∃ t v, exec i s = .next t ∧ exec i { s with cfg := c } = .next v ∧ t.SameResult v

/-- R141: a PROC within the contract, LEN > 0, makes a `W`-byte access exactly when WIDE_EN = 1, SRC and DST are multiples
of `W` and LEN is at least `W`; otherwise every access it makes is of one byte. -/
def Obligations.WideAccessIffSelected : Prop :=
  ∀ (s : State) (src dst len : Word), s.cfg.legal = true → s.AcceptsProc src dst len → len ≠ 0 →
    ∃ t tr, exec (.proc src dst len) s = .next t ∧ t.bus = tr ++ s.bus ∧
      if s.cfg.wideEn = true ∧ src.toNat % s.cfg.chunkBytes = 0 ∧ dst.toNat % s.cfg.chunkBytes = 0 ∧
          s.cfg.chunkBytes ≤ len.toNat then
        ∃ a ∈ tr, a.width = s.cfg.chunkBytes
      else ∀ a ∈ tr, a.width = 1

/-- A `W`-byte read after a `W`-byte write to the same place gives the word written, and a `W`-byte write changes only its
`W` bytes, under either byte order (20_memory.md section 2), and keeps the canonical form (the model's choice,
notes/assumptions/5.md). -/
def Obligations.WordReadAfterWrite : Prop :=
  ∀ (order : ByteOrder) (W : Nat) (m : Memory) (a v : Nat), m.wf → v < 2 ^ (8 * W) →
    (m.writeWord order W a v).readWord order W a = v ∧ (m.writeWord order W a v).wf ∧
    ∀ x, (x < a ∨ a + W ≤ x) → (m.writeWord order W a v).read x = m.read x

/-- R54: a word read is the sum of its `W` bytes, each in its place: the byte at the lowest address least significant under LE and most significant
under BE; a word written puts each of its bytes in that place; and a word of one byte is the byte under either order. -/
def Obligations.WordBytesInOrder : Prop :=
  ∀ (W k : Nat) (m : Memory) (a v : Nat), m.wf → k < W →
    m.readWord .le W a = ∑ j ∈ Finset.range W, (m.read (a + j)).toNat * 2 ^ (8 * j) ∧
    m.readWord .be W a = ∑ j ∈ Finset.range W, (m.read (a + j)).toNat * 2 ^ (8 * (W - 1 - j)) ∧
    m.readWord .le W a < 2 ^ (8 * W) ∧ m.readWord .be W a < 2 ^ (8 * W) ∧
    m.readWord .le W a / 2 ^ (8 * k) % 256 = (m.read (a + k)).toNat ∧
    m.readWord .be W a / 2 ^ (8 * (W - 1 - k)) % 256 = (m.read (a + k)).toNat ∧
    ((m.writeWord .le W a v).read (a + k)).toNat = v / 2 ^ (8 * k) % 256 ∧
    ((m.writeWord .be W a v).read (a + k)).toNat = v / 2 ^ (8 * (W - 1 - k)) % 256 ∧
    (∀ order, m.readWord order 1 a = (m.read a).toNat) ∧
    (∀ order (b : Byte), m.writeWord order 1 a b.toNat = m.write a b)

/-- A packed keystream word, written in the order it was packed in, puts keystream byte `k` at address `A + k`
(42_wide_word.md section 3, derived there). -/
def Obligations.PackedWordLandsInOrder : Prop :=
  ∀ (order : ByteOrder) (W k : Nat) (m : Memory) (a : Nat) (ks : Nat → Byte), m.wf → k < W →
    pack order W ks < 2 ^ (8 * W) ∧ (m.writeWord order W a (pack order W ks)).read (a + k) = ks k

/-- A datapath that packs in one order and accesses memory in the other reverses the keystream bytes of the chunk
(42_wide_word.md section 5, derived there). -/
def Obligations.MismatchedPackingReverses : Prop :=
  ∀ (order order' : ByteOrder) (W k : Nat) (m : Memory) (a b : Nat) (ks : Nat → Byte), m.wf → order ≠ order' → k < W →
    (m.writeWord order W b (m.readWord order W a ^^^ pack order' W ks)).read (b + k) =
      m.read (a + k) ^^^ ks (W - 1 - k)

/-! ### Accesses -/

/-- R60: every command makes exactly the accesses of its trace, in that order, and no other. -/
def Obligations.ExactAccessTrace : Prop :=
  ∀ (s : State) (i : Instr), s.cfg.legal = true →
    ∃ t, exec i s = .next t ∧ t.bus = (commandTrace i s).reverse ++ s.bus

/-- The reads of SCHED lie in the key range; the reads of PROC lie in the input range and its writes in the output range
(20_memory.md section 1, derived there). -/
def Obligations.AccessesStayInRange : Prop :=
  ∀ (s : State) (i : Instr), s.cfg.legal = true →
    ∃ t tr, exec i s = .next t ∧ t.bus = tr ++ s.bus ∧ ∀ x ∈ tr,
      match i with
      | .sched kaddr klen => x.kind = .read ∧ kaddr.toNat ≤ x.addr ∧ x.addr + x.width ≤ kaddr.toNat + klen.toNat
      | .proc src dst len =>
        (x.kind = .read ∧ src.toNat ≤ x.addr ∧ x.addr + x.width ≤ src.toNat + len.toNat) ∨
        (x.kind = .write ∧ dst.toNat ≤ x.addr ∧ x.addr + x.width ≤ dst.toNat + len.toNat)

/-- Every access is of 1 byte or of `W` bytes, a `W`-byte access is made by PROC with WIDE_EN = 1 only, and it is aligned
to `W` (20_memory.md sections 3 and 4, derived there). -/
def Obligations.WordAccessesAligned : Prop :=
  ∀ (s : State) (i : Instr), s.cfg.legal = true →
    ∃ t tr, exec i s = .next t ∧ t.bus = tr ++ s.bus ∧ ∀ x ∈ tr,
      x.width = 1 ∨ (x.width = s.cfg.chunkBytes ∧ s.cfg.wideEn = true ∧ x.addr % s.cfg.chunkBytes = 0 ∧
        ∃ src dst len, i = .proc src dst len)

/-- The access counts of a command: 256 one-byte reads for SCHED; for PROC as many reads as writes, which are `LEN div W`
of `W` bytes and `LEN mod W` of 1 byte on the wide path and LEN of 1 byte on the byte path; none for a fault or LEN = 0
(70_reset_and_hazards.md section 4). -/
def Obligations.AccessCounts : Prop :=
  ∀ (s : State), s.cfg.legal = true →
    (∀ kaddr klen : Word, s.AcceptsSched kaddr klen → ∃ t tr, exec (.sched kaddr klen) s = .next t ∧
      t.bus = tr ++ s.bus ∧ tr.length = 256 ∧ ∀ x ∈ tr, x.kind = .read ∧ x.width = 1) ∧
    (∀ src dst len : Word, s.AcceptsProc src dst len → len ≠ 0 → ∃ t tr, exec (.proc src dst len) s = .next t ∧
      t.bus = tr ++ s.bus ∧ ∀ kind : AccessKind,
        let count := fun w => tr.countP fun x => x.kind = kind && x.width = w
        if wideSelected s.cfg src dst len = true then
          count s.cfg.chunkBytes = len.toNat / s.cfg.chunkBytes ∧ count 1 = len.toNat % s.cfg.chunkBytes
        else count 1 = len.toNat ∧ tr.length = 2 * len.toNat) ∧
    (∀ kaddr klen : Word, ¬ s.AcceptsSched kaddr klen → ∃ t, exec (.sched kaddr klen) s = .next t ∧ t.bus = s.bus) ∧
    (∀ src dst len : Word, ¬ s.AcceptsProc src dst len ∨ len = 0 →
      ∃ t, exec (.proc src dst len) s = .next t ∧ t.bus = s.bus)

/-! ### Faults and responses -/

/-- R163: a command that raises a fault changes nothing but STATUS: S, CA, CB, VALID, memory, the straps and the
sequencer's registers are as before, the engine is idle and no access was made; and the fault is not sticky: the next command has the result it would have had without it. -/
def Obligations.FaultChangesOnlyStatus : Prop :=
  ∀ (s t : State) (D : Descriptor), runDescriptor D s = .next t → statusCode t.status ≠ 0 →
    t.cipher = s.cipher ∧ t.valid = s.valid ∧ t.mem = s.mem ∧ t.bus = s.bus ∧
    t.cfg = s.cfg ∧ t.seq = { s.seq with phase := .idle } ∧
    ∀ D' : Descriptor, ∃ u v, runDescriptor D' t = .next u ∧ runDescriptor D' s = .next v ∧ u.SameResult v

/-- R161: every command, legal or not, delivers exactly one response, which is the value STATUS takes: CODE in bits 3:0,
VALID as it stands after the command in bit 4, bits 31:5 zero; codes 0 and 4 occur on a valid context only, code 2 on an
invalid one only; and the engine is idle after it. -/
def Obligations.OneResponsePerCommand : Prop :=
  ∀ (s : State) (D : Descriptor), ∃ t, runDescriptor D s = .next t ∧ t.responses = t.status :: s.responses ∧
    (statusCode t.status).toNat ≤ 5 ∧ statusValid t.status = t.valid ∧ t.status.toNat < 32 ∧ t.seq.phase = .idle ∧
    (statusCode t.status = 0 ∨ statusCode t.status = 4 → t.valid = true) ∧ (statusCode t.status = 2 → t.valid = false)

/-- The response words that occur: 0x10 after a successful SCHED or PROC, 0x02 after NoState, else the code itself on an
invalid context and the code plus 0x10 on a valid one; codes 6 to 15 never (60_exceptions.md section 2). -/
def Obligations.PossibleResponses : Prop :=
  ∀ (s t : State),
    (∀ kaddr klen, exec (.sched kaddr klen) s = .next t →
      t.status = 0x10 ∨ (s.valid = false ∧ (t.status = 0x01 ∨ t.status = 0x03)) ∨
        (s.valid = true ∧ (t.status = 0x11 ∨ t.status = 0x13))) ∧
    (∀ src dst len, exec (.proc src dst len) s = .next t →
      (s.valid = false ∧ t.status = 0x02) ∨
        (s.valid = true ∧ (t.status = 0x10 ∨ t.status = 0x13 ∨ t.status = 0x14))) ∧
    (∀ D why, decode D = .illegal why → runDescriptor D s = .next t →
      (s.valid = false ∧ t.status = 0x05) ∨ (s.valid = true ∧ t.status = 0x15))

/-! ### Reset -/

/-- The state right after power-on reset, for any straps: VALID = 0, STATUS = 0, IDLE; and a PROC there raises NoState,
a SCHED within the contract succeeds (10_state.md section 9, 70_reset_and_hazards.md section 1). -/
def Obligations.FirstCommandAfterReset : Prop :=
  ∀ (c : Config),
    (State.resetWith c).valid = false ∧ (State.resetWith c).status = 0 ∧ (State.resetWith c).seq.phase = .idle ∧
    (∀ src dst len, ∃ t, exec (.proc src dst len) (State.resetWith c) = .next t ∧ t.status = 0x02) ∧
    (∀ kaddr klen, (State.resetWith c).AcceptsSched kaddr klen →
      ∃ t, exec (.sched kaddr klen) (State.resetWith c) = .next t ∧ t.status = 0x10)

/-- A reset of an idle engine: VALID = 0, STATUS = 0, IDLE, straps and every byte of memory unchanged, no response
(10_state.md section 9, 70_reset_and_hazards.md section 1; the record of responses is the model's, notes/assumptions/10.md). -/
def Obligations.ResetOfIdleEngine : Prop :=
  ∀ (s : State) (rest : List HostEvent), s.seq.phase = .idle → s.port = .reset :: rest →
    ∃ t, step s = .next t ∧ t.valid = false ∧ t.status = 0 ∧ t.seq.phase = .idle ∧ t.cfg = s.cfg ∧ t.mem = s.mem ∧
      t.port = rest ∧ t.responses = s.responses

/-- VALID is set to 1 by a successful SCHED and cleared by reset, and changed by nothing else: whatever a step does,
if VALID changes, it took a descriptor of SCHED, or finished one, or a reset (10_state.md section 4). -/
def Obligations.ValidChangesOnlyBySchedOrReset : Prop :=
  ∀ s t : State, step s = .next t →
    (s.valid = true → t.valid = false → s.seq.phase = .idle ∧
      ((∃ rest, s.port = .reset :: rest) ∨ ∃ D n rest, s.port = .commandReset D n :: rest)) ∧
    (s.valid = false → t.valid = true → t.status = 0x10 ∧
      (s.seq.phase = .ksa ∨ (s.seq.phase = .idle ∧ ∃ D rest kaddr klen, s.port = .command D :: rest ∧
        decode D = .legal (.sched kaddr klen) ∧ s.AcceptsSched kaddr klen)))

/-- A reset while a command runs leaves the engine in the reset state and delivers no response. A PROC leaves the bytes of
a prefix of its output written, whole chunks on the wide path, and the rest of memory as it was; every prefix of the write
sequence, from none to all, is left for some moment `n` of the reset. A SCHED leaves nothing behind, and neither does a
command that is refused, of length zero or illegal (70_reset_and_hazards.md section 1). Which prefix is left is open
there: that the event's number `n` says it is the model's choice, and that a `W`-byte write is not split is DEDUCED
(notes/assumptions/8.md). -/
def Obligations.ResetDuringCommand : Prop :=
  (∀ (s : State) (src dst len : Word) (n : Nat) (rest : List HostEvent), s.cfg.legal = true → s.mem.wf →
    s.seq.phase = .idle → s.AcceptsProc src dst len → len ≠ 0 →
    s.port = .commandReset (encode (.proc src dst len)) n :: rest →
    ∃ t, step s = .next t ∧ t.valid = false ∧ t.status = 0 ∧ t.seq.phase = .idle ∧ t.port = rest ∧ t.cfg = s.cfg ∧
      t.responses = s.responses ∧
      let chunks := chunkCount s.cfg src dst len
      let k := min len.toNat (min n chunks * s.cfg.chunkBytes + (n - chunks))
      (∀ p < k, t.mem.read (dst.toNat + p) = s.mem.read (src.toNat + p) ^^^ s.cipher.keystream p) ∧
      ∀ a, (a < dst.toNat ∨ dst.toNat + k ≤ a) → t.mem.read a = s.mem.read a) ∧
  (∀ (s : State) (kaddr klen : Word) (n : Nat) (rest : List HostEvent), s.seq.phase = .idle →
    s.AcceptsSched kaddr klen → s.port = .commandReset (encode (.sched kaddr klen)) n :: rest →
    ∃ t, step s = .next t ∧ t.valid = false ∧ t.status = 0 ∧ t.seq.phase = .idle ∧ t.port = rest ∧ t.cfg = s.cfg ∧
      t.responses = s.responses ∧ t.mem = s.mem) ∧
  (∀ (s : State) (D : Descriptor) (n : Nat) (rest : List HostEvent), s.seq.phase = .idle →
    s.port = .commandReset D n :: rest →
    (match decode D with
      | .illegal _ => True
      | .legal (.sched kaddr klen) => ¬ s.AcceptsSched kaddr klen
      | .legal (.proc src dst len) => ¬ s.AcceptsProc src dst len ∨ len = 0) →
    ∃ t, step s = .next t ∧ t.valid = false ∧ t.status = 0 ∧ t.seq.phase = .idle ∧ t.port = rest ∧ t.cfg = s.cfg ∧
      t.responses = s.responses ∧ t.mem = s.mem ∧ t.bus = s.bus)

/-! ### The phase machine -/

/-- The phase machine, run from acceptance for the command's number of micro-steps, gives exactly the state of the
command-level meaning (10_state.md section 7, derived there). -/
def Obligations.PhaseMachineEqualsCommand : Prop :=
  ∀ (s : State) (i : Instr), s.cfg.legal = true →
    exec i s = .next (tick^[tickCount i s] (acceptInstr i s))

/-- Every command terminates: from any state that meets the invariant the phase machine is idle after at most `2^32`
micro-steps (70_reset_and_hazards.md section 4, derived there). -/
def Obligations.EveryCommandTerminates : Prop :=
  ∀ s : State, s.Inv → ∃ n ≤ 2 ^ 32, (tick^[n] s).seq.phase = .idle

/-! ### Invariants -/

/-- The state right after reset meets the invariant, for any legal straps (10_state.md section 9). The straps of
`State.reset` itself, memory in its canonical form and empty, and the free values of KW and IW cut to `8·W` bits are the
model's choice (notes/assumptions/1.md, 5.md, 3.md and 14.md). -/
def Obligations.ResetMeetsInvariant : Prop :=
  (∀ c : Config, c.legal = true → (State.resetWith c).Inv) ∧ State.reset.Inv

/-- Every step keeps the invariant: legal straps, memory canonical and inside `0 .. MEM_BYTES − 1`, the table a permutation
while VALID = 1 and during key scheduling, STATUS a response word with VALID in bit 4, the sequencer's registers in range
for the phase (10_state.md sections 2, 5 and 7; the addresses of memory 20_memory.md section 1). The canonical form of
memory and KW, IW as numbers below `2^(8·W)` are the model's choice (notes/assumptions/5.md, notes/assumptions/14.md). -/
def Obligations.StepKeepsInvariant : Prop :=
  ∀ s t : State, s.Inv → step s = .next t → t.Inv

/-- The straps are constant: no step, no command and no reset changes them (10_state.md section 5). -/
def Obligations.StrapsAreConstant : Prop := ∀ s t : State, step s = .next t → t.cfg = s.cfg

/-- Every key-schedule step and every keystream step keeps the table a permutation (10_state.md section 2, derived there). -/
def Obligations.StepsKeepPermutation : Prop :=
  ∀ s : State, s.cipher.S.IsPermutation → (ksaStep s).cipher.S.IsPermutation ∧
    (byteStep s).cipher.S.IsPermutation ∧ (chunkStep s).cipher.S.IsPermutation ∧
    ∀ n, (s.cipher.advance n).S.IsPermutation

/-! ### Memory and the host's writes -/

/-- A byte read after a byte written gives it, every other byte is as before, the canonical form is kept, and canonical
memories that read alike are equal (20_memory.md section 5; the canonical form is the model's, notes/assumptions/5.md). -/
def Obligations.MemoryReadAfterWrite : Prop :=
  ∀ (m : Memory) (a : Nat) (b : Byte), m.wf →
    (m.write a b).read a = b ∧ (∀ x, x ≠ a → (m.write a b).read x = m.read x) ∧ (m.write a b).wf ∧
    ∀ m' : Memory, m'.wf → (∀ x, m.read x = m'.read x) → m = m'

/-- The host writes memory between commands; a write to an address that does not exist is a fault of the host's, and no
write changes the context (00_scope.md section 5, 20_memory.md section 1; the fault is the model's, notes/assumptions/7.md). -/
def Obligations.HostWriteBetweenCommands : Prop :=
  ∀ (s : State) (a : Word) (b : Byte) (rest : List HostEvent), s.mem.wf → s.seq.phase = .idle →
    s.port = .write a b :: rest →
    if a.toNat < s.cfg.memBytes then
      ∃ t, step s = .next t ∧ t.mem.read a.toNat = b ∧ (∀ x, x ≠ a.toNat → t.mem.read x = s.mem.read x) ∧
        t.cipher = s.cipher ∧ t.valid = s.valid ∧ t.status = s.status ∧ t.port = rest
    else step s = .fault (.noSuchAddress a.toNat)
end

