-- ==== Sys2Proof/Laws/Decode.lean ====
section
/-! SUPPORT. Laws of the descriptor's fields: the bits and the fields of a descriptor put together from four words, and a
descriptor as its words. -/

namespace Sys2Proof

/-- The bits of a descriptor put together from four words (R80). -/
theorem getLsbD_words (w3 w2 w1 w0 : Word) (j : Nat) :
    BitVec.getLsbD (w := 128) (w3 ++ w2 ++ w1 ++ w0) j =
      if j < 32 then w0.getLsbD j else if j - 32 < 32 then w1.getLsbD (j - 32)
      else if j - 32 - 32 < 32 then w2.getLsbD (j - 32 - 32) else w3.getLsbD (j - 32 - 32 - 32) := by
  change BitVec.getLsbD (w := 32 + 32 + 32 + 32) (w3 ++ w2 ++ w1 ++ w0) j = _
  rw [BitVec.getLsbD_append, BitVec.getLsbD_append, BitVec.getLsbD_append]

/-- DW0 of a descriptor put together from four words. -/
theorem descriptorWord_zero (w3 w2 w1 w0 : Word) : descriptorWord (w3 ++ w2 ++ w1 ++ w0) 0 = w0 := by
  apply BitVec.eq_of_getLsbD_eq
  intro i hi
  rw [descriptorWord, BitVec.getLsbD_extractLsb', getLsbD_words]
  rw [if_pos (by omega)]
  simp [hi]

/-- DW1 of a descriptor put together from four words. -/
theorem descriptorWord_one (w3 w2 w1 w0 : Word) : descriptorWord (w3 ++ w2 ++ w1 ++ w0) 1 = w1 := by
  apply BitVec.eq_of_getLsbD_eq
  intro i hi
  rw [descriptorWord, BitVec.getLsbD_extractLsb', getLsbD_words]
  rw [if_neg (by omega), if_pos (by omega)]
  simp [hi]

/-- DW2 of a descriptor put together from four words. -/
theorem descriptorWord_two (w3 w2 w1 w0 : Word) : descriptorWord (w3 ++ w2 ++ w1 ++ w0) 2 = w2 := by
  apply BitVec.eq_of_getLsbD_eq
  intro i hi
  rw [descriptorWord, BitVec.getLsbD_extractLsb', getLsbD_words]
  rw [if_neg (by omega), if_neg (by omega), if_pos (by omega), show 32 * 2 + i - 32 - 32 = i by omega]
  simp [hi]

/-- DW3 of a descriptor put together from four words. -/
theorem descriptorWord_three (w3 w2 w1 w0 : Word) : descriptorWord (w3 ++ w2 ++ w1 ++ w0) 3 = w3 := by
  apply BitVec.eq_of_getLsbD_eq
  intro i hi
  rw [descriptorWord, BitVec.getLsbD_extractLsb', getLsbD_words]
  rw [if_neg (by omega), if_neg (by omega), if_neg (by omega), show 32 * 3 + i - 32 - 32 - 32 = i by omega]
  simp [hi]

/-- A descriptor is its four words (R80). -/
theorem descriptor_eq_words (D : Descriptor) :
    D = descriptorWord D 3 ++ descriptorWord D 2 ++ descriptorWord D 1 ++ descriptorWord D 0 := by
  apply BitVec.eq_of_getLsbD_eq
  intro i hi
  rw [getLsbD_words]
  simp only [descriptorWord, BitVec.getLsbD_extractLsb']
  split
  · simp [*]
  · split
    · next h1 h2 => simp [h2]; congr 1; omega
    · split
      · next h1 h2 h3 => simp [h3]; congr 1; omega
      · next h1 h2 h3 => simp [show i - 32 - 32 - 32 < 32 by omega]; congr 1; omega

/-- DW0 is RSV0 above OPC (R81). -/
theorem descriptorWord_zero_eq (D : Descriptor) : descriptorWord D 0 = (rsv0Field D ++ opcField D : BitVec (24 + 8)) := by
  apply BitVec.eq_of_getLsbD_eq
  intro i hi
  rw [BitVec.getLsbD_append]
  simp only [descriptorWord, rsv0Field, opcField, BitVec.getLsbD_extractLsb']
  split
  · next h => simp [h, hi]
  · next h => simp [hi, show i - 8 < 24 by omega]; congr 1; omega

/-- OPC and RSV0 are zero-extended parts of DW0 (R81). -/
theorem opcField_eq (D : Descriptor) : opcField D = (descriptorWord D 0).extractLsb' 0 8 := by
  apply BitVec.eq_of_getLsbD_eq
  intro i hi
  simp only [descriptorWord, opcField, BitVec.getLsbD_extractLsb']
  simp [hi, show i < 32 by omega]

theorem rsv0Field_eq (D : Descriptor) : rsv0Field D = (descriptorWord D 0).extractLsb' 8 24 := by
  apply BitVec.eq_of_getLsbD_eq
  intro i hi
  simp only [descriptorWord, rsv0Field, BitVec.getLsbD_extractLsb']
  simp [hi, show 8 + i < 32 by omega]

/-- The bits of a descriptor word (R80). -/
theorem getLsbD_descriptorWord (D : Descriptor) (k j : Nat) :
    (descriptorWord D k).getLsbD j = (decide (j < 32) && D.getLsbD (32 * k + j)) := by
  simp [descriptorWord]

/-- DW0 when RSV0 = 0 (R81). -/
theorem descriptorWord_zero_of (D : Descriptor) (k : BitVec 8) (h1 : rsv0Field D = 0) (h2 : opcField D = k) :
    descriptorWord D 0 = k.setWidth 32 := by
  rw [descriptorWord_zero_eq, h1, h2]
  apply BitVec.eq_of_getLsbD_eq
  intro i hi
  have : BitVec.getLsbD (w := 32) (0#24 ++ k) i = BitVec.getLsbD (w := 24+8) (0#24 ++ k) i := rfl
  refine this.trans ?_
  rw [BitVec.getLsbD_append, BitVec.getLsbD_setWidth]
  split
  · simp [hi]
  · simp [BitVec.getLsbD_of_ge k i (by omega)]

/-- DW0 is an opcode alone iff RSV0 = 0 (R81). -/
theorem descriptorWord_zero_iff (D : Descriptor) (k : BitVec 8) :
    descriptorWord D 0 = k.setWidth 32 ↔ rsv0Field D = 0 ∧ opcField D = k := by
  constructor
  · intro h
    rw [rsv0Field_eq, opcField_eq, h]
    constructor
    · apply BitVec.eq_of_getLsbD_eq; intro i hi; simp [hi]
    · apply BitVec.eq_of_getLsbD_eq; intro i hi; simp [hi]; intro _; omega
  · rintro ⟨h1, h2⟩; exact descriptorWord_zero_of D k h1 h2

/-- A word that a mask covers whole is the word of the match (R92). -/
theorem descriptorWord_of_mask (D : Descriptor) (k : Nat) (M V : Descriptor) (h : D &&& M = V)
    (hm : descriptorWord M k = 0xFFFFFFFF#32) :
    descriptorWord D k = descriptorWord V k := by
  rw [← h]
  apply BitVec.eq_of_getLsbD_eq
  intro i hi
  have := congrArg (fun w => BitVec.getLsbD w i) hm
  simp only [getLsbD_descriptorWord] at *
  have h2 : (0xFFFFFFFF#32).getLsbD i = true := by
    have : (0xFFFFFFFF#32) = BitVec.allOnes 32 := by decide
    rw [this, BitVec.getLsbD_allOnes]; simp [hi]
  rw [h2] at this
  simp [hi] at this ⊢
  simp [this]

/-- A mask works word by word (R92). -/
theorem and_eq_words (D M : Descriptor) :
    D &&& M = (descriptorWord D 3 &&& descriptorWord M 3) ++ (descriptorWord D 2 &&& descriptorWord M 2) ++
      (descriptorWord D 1 &&& descriptorWord M 1) ++ (descriptorWord D 0 &&& descriptorWord M 0) := by
  have e : ∀ k, descriptorWord (D &&& M) k = descriptorWord D k &&& descriptorWord M k := by
    intro k
    apply BitVec.eq_of_getLsbD_eq
    intro i hi
    rw [BitVec.getLsbD_and]; simp only [getLsbD_descriptorWord]
    rw [BitVec.getLsbD_and]; simp [hi]
  conv_lhs => rw [descriptor_eq_words (D &&& M), e, e, e, e]

/-- A descriptor matches the row of SCHED iff DW0 = 1 and DW2 = 0 (R84, R92). -/
theorem schedRow_fits_iff (D : Descriptor) :
    schedRow.fits D = true ↔ descriptorWord D 0 = 1 ∧ descriptorWord D 2 = 0 := by
  constructor
  · intro h
    have h := beq_iff_eq.1 h
    exact ⟨descriptorWord_of_mask D 0 _ _ h (by decide),
      descriptorWord_of_mask D 2 _ _ h (by decide)⟩
  · rintro ⟨h0, h2⟩
    apply beq_iff_eq.2
    rw [and_eq_words, h0, h2]
    have a3 : descriptorWord schedRow.mask 3 = 0#32 := by decide
    have a1 : descriptorWord schedRow.mask 1 = 0#32 := by decide
    have a0 : descriptorWord schedRow.mask 0 = 0xFFFFFFFF#32 := by decide
    have a2 : descriptorWord schedRow.mask 2 = 0xFFFFFFFF#32 := by decide
    rw [a3, a1, a0, a2]
    simp only [BitVec.and_zero]
    decide

/-- A descriptor matches the row of PROC iff DW0 = 2 (R85, R92). -/
theorem procRow_fits_iff (D : Descriptor) : procRow.fits D = true ↔ descriptorWord D 0 = 2 := by
  constructor
  · intro h
    have h := beq_iff_eq.1 h
    exact descriptorWord_of_mask D 0 _ _ h (by decide)
  · rintro h0
    apply beq_iff_eq.2
    rw [and_eq_words, h0]
    have a3 : descriptorWord procRow.mask 3 = 0#32 := by decide
    have a1 : descriptorWord procRow.mask 1 = 0#32 := by decide
    have a0 : descriptorWord procRow.mask 0 = 0xFFFFFFFF#32 := by decide
    have a2 : descriptorWord procRow.mask 2 = 0#32 := by decide
    rw [a3, a1, a0, a2]
    simp only [BitVec.and_zero]
    decide

/-- The one way a descriptor is legal as SCHED (R86). -/
theorem decode_sched_iff (D : Descriptor) (a n : Word) :
    decode D = .legal (.sched a n) ↔
      rsv0Field D = 0 ∧ opcField D = 1 ∧ a2Field D = 0 ∧ a1Field D = a ∧ nField D = n := by
  unfold decode
  by_cases h1 : rsv0Field D = 0 <;> by_cases h2 : opcField D = 1 <;> by_cases h3 : a2Field D = 0 <;>
    by_cases h4 : opcField D = 2 <;> simp_all

/-- The one way a descriptor is legal as PROC (R86). -/
theorem decode_proc_iff (D : Descriptor) (a b n : Word) :
    decode D = .legal (.proc a b n) ↔
      rsv0Field D = 0 ∧ opcField D = 2 ∧ a1Field D = a ∧ a2Field D = b ∧ nField D = n := by
  unfold decode
  by_cases h1 : rsv0Field D = 0 <;> by_cases h2 : opcField D = 1 <;> by_cases h3 : a2Field D = 0 <;>
    by_cases h4 : opcField D = 2 <;> simp_all

end Sys2Proof
end

