-- ==== Sys2Proof/Laws/Memory.lean ====
section
/-! SUPPORT. Laws of memory: read after write, the canonical form is kept, equal reads make equal memories, and the
`W`-byte word and its bytes (R54, R55, R143). -/

namespace Sys2Proof.Machine

@[simp] theorem Memory.read_nil (a : Nat) : Memory.read [] a = Memory.unlisted := rfl

theorem Memory.read_cons (a' : Nat) (b : Byte) (m : Memory) (a : Nat) :
    Memory.read ((a', b) :: m) a = if a = a' then b else Memory.read m a := rfl

/-- A write leaves every other address as it was. -/
theorem Memory.read_write_ne (m : Memory) {a x : Nat} (b : Byte) (h : x ≠ a) :
    (m.write a b).read x = m.read x := by
  induction m with
  | nil => unfold Memory.write; split <;> simp [Memory.read, h]
  | cons c m ih =>
    obtain ⟨a', b'⟩ := c
    unfold Memory.write
    split
    · split <;> simp [Memory.read, h]
    · split
      · next h' => subst h'; split <;> simp [Memory.read, h]
      · simp [Memory.read, ih]

/-- An address below every listed one is unlisted. -/
theorem Memory.read_of_lt {m : Memory} {a : Nat} (h : ∀ c ∈ m, a < c.1) : m.read a = Memory.unlisted := by
  induction m with
  | nil => rfl
  | cons c m ih =>
    have h1 := h c (by simp)
    have h2 := ih fun d hd => h d (by simp [hd])
    obtain ⟨a', b'⟩ := c
    have : a ≠ a' := by simp at h1; omega
    simp [Memory.read, this, h2]

theorem Memory.wf_cons {c : Host.Cell} {m : Memory} :
    Memory.wf (c :: m) ↔ (∀ d ∈ m, c.1 < d.1) ∧ c.2 ≠ Memory.unlisted ∧ Memory.wf m := by
  simp only [Memory.wf, List.pairwise_cons, List.mem_cons, forall_eq_or_imp]
  tauto

/-- A read after a write to the same address gives the byte written. -/
theorem Memory.read_write_same {m : Memory} (h : m.wf) (a : Nat) (b : Byte) : (m.write a b).read a = b := by
  induction m with
  | nil => unfold Memory.write; split <;> simp_all [Memory.read]
  | cons c m ih =>
    obtain ⟨hlt, hne, hm⟩ := Memory.wf_cons.1 h
    obtain ⟨a', b'⟩ := c
    unfold Memory.write
    split
    · next h1 =>
      split
      · next h2 =>
        rw [h2]
        refine Memory.read_of_lt fun d hd => ?_
        rcases List.mem_cons.1 hd with rfl | hd
        · exact h1
        · exact lt_trans h1 (hlt d hd)
      · simp [Memory.read]
    · split
      · next h1 =>
        split
        · next h2 => rw [h2, h1]; exact Memory.read_of_lt hlt
        · simp [Memory.read]
      · next h1 => simp [Memory.read, h1, ih hm]

theorem Memory.read_write {m : Memory} (h : m.wf) (a x : Nat) (b : Byte) :
    (m.write a b).read x = if x = a then b else m.read x := by
  split
  · next e => subst e; exact Memory.read_write_same h x b
  · next e => exact Memory.read_write_ne m b e

theorem Memory.mem_write {m : Memory} {a : Nat} {b : Byte} {c : Host.Cell} (h : c ∈ m.write a b) :
    c ∈ m ∨ (c = (a, b) ∧ b ≠ Memory.unlisted) := by
  induction m with
  | nil => unfold Memory.write at h; split at h <;> simp_all
  | cons d m ih =>
    obtain ⟨a', b'⟩ := d
    unfold Memory.write at h
    split at h
    · split at h
      · exact .inl h
      · rcases List.mem_cons.1 h with rfl | h
        · exact .inr ⟨rfl, ‹_›⟩
        · exact .inl h
    · split at h
      · split at h
        · exact .inl (List.mem_cons_of_mem _ h)
        · rcases List.mem_cons.1 h with rfl | h
          · exact .inr ⟨rfl, ‹_›⟩
          · exact .inl (List.mem_cons_of_mem _ h)
      · rcases List.mem_cons.1 h with rfl | h
        · exact .inl (by simp)
        · rcases ih h with h | h
          · exact .inl (List.mem_cons_of_mem _ h)
          · exact .inr h

/-- A write keeps the canonical form. -/
theorem Memory.write_wf {m : Memory} (h : m.wf) (a : Nat) (b : Byte) : (m.write a b).wf := by
  induction m with
  | nil => unfold Memory.write; split <;> simp_all [Memory.wf]
  | cons c m ih =>
    obtain ⟨hlt, hne, hm⟩ := Memory.wf_cons.1 h
    obtain ⟨a', b'⟩ := c
    unfold Memory.write
    split
    · next h1 =>
      split
      · exact h
      · next h2 =>
        refine Memory.wf_cons.2 ⟨fun d hd => ?_, h2, h⟩
        rcases List.mem_cons.1 hd with rfl | hd
        · exact h1
        · exact lt_trans h1 (hlt d hd)
    · next h1 =>
      split
      · next h2 =>
        split
        · exact hm
        · next h3 => exact Memory.wf_cons.2 ⟨h2 ▸ hlt, h3, hm⟩
      · next h2 =>
        refine Memory.wf_cons.2 ⟨fun d hd => ?_, hne, ih hm⟩
        rcases Memory.mem_write hd with hd | ⟨rfl, -⟩
        · exact hlt d hd
        · simp only; omega

/-- A write to an existing address lists no address that does not exist. -/
theorem Memory.write_within {m : Memory} {N a : Nat} (h : m.within N) (ha : a < N) (b : Byte) :
    (m.write a b).within N := by
  intro c hc
  rcases Memory.mem_write hc with hc | ⟨rfl, -⟩
  · exact h c hc
  · exact ha

/-- Canonical memories that read alike are equal. -/
theorem Memory.ext_read {m m' : Memory} (h : m.wf) (h' : m'.wf) (e : ∀ a, m.read a = m'.read a) : m = m' := by
  induction m generalizing m' with
  | nil =>
    cases m' with
    | nil => rfl
    | cons c m' =>
      have := e c.1
      simp [Memory.read] at this
      exact absurd this.symm (Memory.wf_cons.1 h').2.1
  | cons c m ih =>
    obtain ⟨hlt, hne, hm⟩ := Memory.wf_cons.1 h
    cases m' with
    | nil =>
      have := e c.1
      simp [Memory.read] at this
      exact absurd this hne
    | cons c' m' =>
      obtain ⟨hlt', hne', hm'⟩ := Memory.wf_cons.1 h'
      obtain ⟨a, b⟩ := c
      obtain ⟨a', b'⟩ := c'
      simp only [ne_eq] at hlt hlt' hne hne'
      rcases lt_trichotomy a a' with hl | rfl | hl
      · have := e a
        rw [Memory.read_cons, if_pos rfl, Memory.read_of_lt] at this
        · exact absurd this hne
        · intro d hd
          rcases List.mem_cons.1 hd with rfl | hd
          · exact hl
          · exact lt_trans hl (hlt' d hd)
      · have hb : b = b' := by simpa [Memory.read] using e a
        subst hb
        congr 1
        refine ih hm hm' fun x => ?_
        by_cases hx : x = a
        · subst hx; rw [Memory.read_of_lt hlt, Memory.read_of_lt hlt']
        · simpa [Memory.read, hx] using e x
      · have := e a'
        rw [Memory.read_cons a' b', if_pos rfl, Memory.read_of_lt] at this
        · exact absurd this.symm hne'
        · intro d hd
          rcases List.mem_cons.1 hd with rfl | hd
          · exact hl
          · exact lt_trans hl (hlt d hd)

/-! ### Words and their bytes -/

theorem pack_le_succ (W : Nat) (f : Nat → Byte) :
    pack .le (W + 1) f = (f 0).toNat + 256 * pack .le W (fun k => f (k + 1)) := by
  simp only [pack, laneShift, List.range_succ_eq_map, List.map_cons, List.map_map, List.sum_cons,
    ← List.sum_map_mul_left]
  congr 1
  · simp
  · congr 1
    refine List.map_congr_left fun k _ => ?_
    simp only [Function.comp, Nat.succ_eq_add_one, Nat.mul_add, pow_add]
    ring

theorem sum_map_range (W : Nat) (g : Nat → Nat) : ((List.range W).map g).sum = ∑ k ∈ Finset.range W, g k := rfl

theorem pack_be_eq_le (W : Nat) (f : Nat → Byte) : pack .be W f = pack .le W (fun k => f (W - 1 - k)) := by
  simp only [pack, laneShift, sum_map_range]
  rw [← Finset.sum_range_reflect]
  refine Finset.sum_congr rfl fun k hk => ?_
  have : k < W := Finset.mem_range.1 hk
  congr 3
  omega

/-- A packed word has `8·W` bits (R143). -/
theorem pack_lt (order : ByteOrder) (W : Nat) (f : Nat → Byte) : pack order W f < 2 ^ (8 * W) := by
  have key : ∀ (W : Nat) (f : Nat → Byte), pack .le W f < 2 ^ (8 * W) := by
    intro W
    induction W with
    | zero => intro f; simp [pack]
    | succ W ih =>
      intro f
      rw [pack_le_succ, Nat.mul_add, pow_add]
      have := ih fun k => f (k + 1)
      have := (f 0).isLt
      omega
  cases order
  · exact key W f
  · rw [pack_be_eq_le]; exact key W _

theorem laneByte_pack_le (W : Nat) (f : Nat → Byte) (k : Nat) (h : k < W) :
    BitVec.ofNat 8 (pack .le W f / 2 ^ (8 * k)) = f k := by
  induction W generalizing f k with
  | zero => omega
  | succ W ih =>
    rw [pack_le_succ]
    cases k with
    | zero =>
      apply BitVec.eq_of_toNat_eq
      have := (f 0).isLt
      simpa using this
    | succ k =>
      have h1 : ((f 0).toNat + 256 * pack .le W fun k => f (k + 1)) / 2 ^ (8 * (k + 1)) =
          (pack .le W fun k => f (k + 1)) / 2 ^ (8 * k) := by
        have h2 : 2 ^ (8 * (k + 1)) = 256 * 2 ^ (8 * k) := by rw [Nat.mul_add, pow_add]; ring
        have := (f 0).isLt
        rw [h2, ← Nat.div_div_eq_div_mul]
        congr 1
        omega
      rw [h1, ih (fun k => f (k + 1)) k (by omega)]

/-- Lane `k` of a packed word is the byte packed there (R54, R143). -/
theorem laneByte_pack (order : ByteOrder) (W : Nat) (f : Nat → Byte) (k : Nat) (h : k < W) :
    laneByte order W (pack order W f) k = f k := by
  cases order
  · exact laneByte_pack_le W f k h
  · rw [pack_be_eq_le]
    refine (laneByte_pack_le W _ (W - 1 - k) (by omega)).trans ?_
    congr 1
    omega

/-- The exclusive or of two words works lane by lane (R151). -/
theorem laneByte_xor (order : ByteOrder) (W v w k : Nat) :
    laneByte order W (v ^^^ w) k = laneByte order W v k ^^^ laneByte order W w k := by
  simp only [laneByte, ← Nat.shiftRight_eq_div_pow, Nat.shiftRight_xor_distrib]
  apply BitVec.eq_of_toNat_eq
  simp

/-! ### The word write -/

/-- What a `W`-byte write does to every byte: byte `k` of the word goes to `a + k`, no other byte changes (R54). -/
theorem Memory.read_writeWord {m : Memory} (h : m.wf) (order : ByteOrder) (W a v x : Nat) :
    (m.writeWord order W a v).read x = if a ≤ x ∧ x < a + W then laneByte order W v (x - a) else m.read x := by
  have run : ∀ n, ((List.range n).foldl (fun m' k => m'.write (a + k) (laneByte order W v k)) m).wf ∧
      ((List.range n).foldl (fun m' k => m'.write (a + k) (laneByte order W v k)) m).read x =
        if a ≤ x ∧ x < a + n then laneByte order W v (x - a) else m.read x := by
    intro n
    induction n with
    | zero => exact ⟨h, by rw [if_neg (by omega)]; rfl⟩
    | succ n ih =>
      rw [List.range_succ, List.foldl_append]
      simp only [List.foldl_cons, List.foldl_nil]
      refine ⟨Memory.write_wf ih.1 _ _, ?_⟩
      rw [Memory.read_write ih.1, ih.2]
      by_cases e : x = a + n
      · subst e
        rw [if_pos rfl, if_pos (by omega), Nat.add_sub_cancel_left]
      · rw [if_neg e]
        congr 1
        exact propext ⟨fun g => by omega, fun g => by omega⟩
  exact (run W).2

/-- A `W`-byte write keeps the canonical form. -/
theorem Memory.writeWord_wf {m : Memory} (h : m.wf) (order : ByteOrder) (W a v : Nat) :
    (m.writeWord order W a v).wf := by
  unfold Memory.writeWord
  induction List.range W using List.reverseRecOn with
  | nil => exact h
  | append_singleton l k ih => simpa only [List.foldl_append, List.foldl_cons, List.foldl_nil] using Memory.write_wf ih _ _

/-- Packing the bytes of a word gives the word back. -/
theorem pack_laneByte (order : ByteOrder) {W v : Nat} (h : v < 2 ^ (8 * W)) : pack order W (laneByte order W v) = v := by
  have key : ∀ (W v : Nat), v < 2 ^ (8 * W) → pack .le W (fun k => BitVec.ofNat 8 (v / 2 ^ (8 * k))) = v := by
    intro W
    induction W with
    | zero => intro v h; simp at h; simp [pack, h]
    | succ W ih =>
      intro v h
      rw [pack_le_succ]
      have e : ∀ k, v / 2 ^ (8 * (k + 1)) = v / 256 / 2 ^ (8 * k) := by
        intro k
        rw [Nat.div_div_eq_div_mul, Nat.mul_add, Nat.mul_one, Nat.pow_add, Nat.mul_comm]
      simp only [e]
      rw [ih (v / 256) (by
        rw [Nat.div_lt_iff_lt_mul (by omega)]
        have : 2 ^ (8 * (W + 1)) = 2 ^ (8 * W) * 256 := by rw [Nat.mul_add, Nat.pow_add]
        omega)]
      simp
      omega
  cases order
  · exact key W v h
  · rw [pack_be_eq_le]
    conv_rhs => rw [← key W v h]
    simp only [pack, laneShift, sum_map_range]
    refine Finset.sum_congr rfl fun k hk => ?_
    have : k < W := Finset.mem_range.1 hk
    simp only [laneByte, laneShift, show W - 1 - (W - 1 - k) = k by omega]

end Sys2Proof.Machine
end

