-- ==== Sys2Proof/Laws/State.lean ====
section
/-! SUPPORT. One lemma per field of State per update, so that no later proof unfolds a record update. -/

namespace Sys2Proof.Machine

/-! ### access -/

@[simp] theorem access_cfg (s : State) (k : AccessKind) (a n : Nat) : (s.access k a n).cfg = s.cfg := rfl
@[simp] theorem access_cipher (s : State) (k : AccessKind) (a n : Nat) : (s.access k a n).cipher = s.cipher := rfl
@[simp] theorem access_valid (s : State) (k : AccessKind) (a n : Nat) : (s.access k a n).valid = s.valid := rfl
@[simp] theorem access_status (s : State) (k : AccessKind) (a n : Nat) : (s.access k a n).status = s.status := rfl
@[simp] theorem access_seq (s : State) (k : AccessKind) (a n : Nat) : (s.access k a n).seq = s.seq := rfl
@[simp] theorem access_mem (s : State) (k : AccessKind) (a n : Nat) : (s.access k a n).mem = s.mem := rfl
@[simp] theorem access_bus (s : State) (k : AccessKind) (a n : Nat) :
    (s.access k a n).bus = { kind := k, addr := a, width := n } :: s.bus := rfl
@[simp] theorem access_port (s : State) (k : AccessKind) (a n : Nat) : (s.access k a n).port = s.port := rfl
@[simp] theorem access_responses (s : State) (k : AccessKind) (a n : Nat) :
    (s.access k a n).responses = s.responses := rfl
@[simp] theorem access_draws (s : State) (k : AccessKind) (a n : Nat) : (s.access k a n).draws = s.draws := rfl

/-! ### storeByte -/

@[simp] theorem storeByte_cfg (s : State) (a : Nat) (b : Byte) : (s.storeByte a b).cfg = s.cfg := rfl
@[simp] theorem storeByte_cipher (s : State) (a : Nat) (b : Byte) : (s.storeByte a b).cipher = s.cipher := rfl
@[simp] theorem storeByte_valid (s : State) (a : Nat) (b : Byte) : (s.storeByte a b).valid = s.valid := rfl
@[simp] theorem storeByte_status (s : State) (a : Nat) (b : Byte) : (s.storeByte a b).status = s.status := rfl
@[simp] theorem storeByte_seq (s : State) (a : Nat) (b : Byte) : (s.storeByte a b).seq = s.seq := rfl
@[simp] theorem storeByte_mem (s : State) (a : Nat) (b : Byte) : (s.storeByte a b).mem = s.mem.write a b := rfl
@[simp] theorem storeByte_bus (s : State) (a : Nat) (b : Byte) :
    (s.storeByte a b).bus = { kind := .write, addr := a, width := 1 } :: s.bus := rfl
@[simp] theorem storeByte_port (s : State) (a : Nat) (b : Byte) : (s.storeByte a b).port = s.port := rfl
@[simp] theorem storeByte_responses (s : State) (a : Nat) (b : Byte) :
    (s.storeByte a b).responses = s.responses := rfl
@[simp] theorem storeByte_draws (s : State) (a : Nat) (b : Byte) : (s.storeByte a b).draws = s.draws := rfl

/-! ### storeWord -/

@[simp] theorem storeWord_cfg (s : State) (a v : Nat) : (s.storeWord a v).cfg = s.cfg := rfl
@[simp] theorem storeWord_cipher (s : State) (a v : Nat) : (s.storeWord a v).cipher = s.cipher := rfl
@[simp] theorem storeWord_valid (s : State) (a v : Nat) : (s.storeWord a v).valid = s.valid := rfl
@[simp] theorem storeWord_status (s : State) (a v : Nat) : (s.storeWord a v).status = s.status := rfl
@[simp] theorem storeWord_seq (s : State) (a v : Nat) : (s.storeWord a v).seq = s.seq := rfl
@[simp] theorem storeWord_mem (s : State) (a v : Nat) :
    (s.storeWord a v).mem = s.mem.writeWord s.cfg.byteOrder s.cfg.chunkBytes a v := rfl
@[simp] theorem storeWord_bus (s : State) (a v : Nat) :
    (s.storeWord a v).bus = { kind := .write, addr := a, width := s.cfg.chunkBytes } :: s.bus := rfl
@[simp] theorem storeWord_port (s : State) (a v : Nat) : (s.storeWord a v).port = s.port := rfl
@[simp] theorem storeWord_responses (s : State) (a v : Nat) : (s.storeWord a v).responses = s.responses := rfl
@[simp] theorem storeWord_draws (s : State) (a v : Nat) : (s.storeWord a v).draws = s.draws := rfl

/-! ### respond -/

@[simp] theorem respond_cfg (s : State) (c : Code) : (s.respond c).cfg = s.cfg := rfl
@[simp] theorem respond_cipher (s : State) (c : Code) : (s.respond c).cipher = s.cipher := rfl
@[simp] theorem respond_valid (s : State) (c : Code) : (s.respond c).valid = s.valid := rfl
@[simp] theorem respond_status (s : State) (c : Code) : (s.respond c).status = responseWord s.valid c := rfl
@[simp] theorem respond_seq (s : State) (c : Code) : (s.respond c).seq = { s.seq with phase := .idle } := rfl
@[simp] theorem respond_mem (s : State) (c : Code) : (s.respond c).mem = s.mem := rfl
@[simp] theorem respond_bus (s : State) (c : Code) : (s.respond c).bus = s.bus := rfl
@[simp] theorem respond_port (s : State) (c : Code) : (s.respond c).port = s.port := rfl
@[simp] theorem respond_responses (s : State) (c : Code) :
    (s.respond c).responses = responseWord s.valid c :: s.responses := rfl
@[simp] theorem respond_draws (s : State) (c : Code) : (s.respond c).draws = s.draws := rfl

/-! ### raise -/

@[simp] theorem raise_cfg (s : State) (c : Code) : (s.raise c).cfg = s.cfg := rfl
@[simp] theorem raise_cipher (s : State) (c : Code) : (s.raise c).cipher = s.cipher := rfl
@[simp] theorem raise_valid (s : State) (c : Code) : (s.raise c).valid = s.valid := rfl
@[simp] theorem raise_status (s : State) (c : Code) : (s.raise c).status = responseWord s.valid c := rfl
@[simp] theorem raise_seq (s : State) (c : Code) : (s.raise c).seq = { s.seq with phase := .idle } := rfl
@[simp] theorem raise_mem (s : State) (c : Code) : (s.raise c).mem = s.mem := rfl
@[simp] theorem raise_bus (s : State) (c : Code) : (s.raise c).bus = s.bus := rfl
@[simp] theorem raise_port (s : State) (c : Code) : (s.raise c).port = s.port := rfl
@[simp] theorem raise_responses (s : State) (c : Code) :
    (s.raise c).responses = responseWord s.valid c :: s.responses := rfl
@[simp] theorem raise_draws (s : State) (c : Code) : (s.raise c).draws = s.draws := rfl

/-! ### hostReset -/

@[simp] theorem hostReset_cfg (s : State) : s.hostReset.cfg = s.cfg := rfl
@[simp] theorem hostReset_cipher (s : State) : s.hostReset.cipher = Config.resetCipher s.draws s.cipher := rfl
@[simp] theorem hostReset_valid (s : State) : s.hostReset.valid = false := rfl
@[simp] theorem hostReset_status (s : State) : s.hostReset.status = 0 := rfl
@[simp] theorem hostReset_seq (s : State) :
    s.hostReset.seq = { (Config.resetSequencer s.draws s.seq).clip s.cfg.chunkBytes with phase := .idle } := rfl
@[simp] theorem hostReset_mem (s : State) : s.hostReset.mem = s.mem := rfl
@[simp] theorem hostReset_bus (s : State) : s.hostReset.bus = s.bus := rfl
@[simp] theorem hostReset_port (s : State) : s.hostReset.port = s.port := rfl
@[simp] theorem hostReset_responses (s : State) : s.hostReset.responses = s.responses := rfl
@[simp] theorem hostReset_draws (s : State) : s.hostReset.draws = s.draws + 1 := rfl

/-! ### setKw -/

@[simp] theorem setKw_cfg (s : State) (v : Nat) : (s.setKw v).cfg = s.cfg := rfl
@[simp] theorem setKw_cipher (s : State) (v : Nat) : (s.setKw v).cipher = s.cipher := rfl
@[simp] theorem setKw_valid (s : State) (v : Nat) : (s.setKw v).valid = s.valid := rfl
@[simp] theorem setKw_status (s : State) (v : Nat) : (s.setKw v).status = s.status := rfl
@[simp] theorem setKw_seq (s : State) (v : Nat) : (s.setKw v).seq = { s.seq with kw := v } := rfl
@[simp] theorem setKw_mem (s : State) (v : Nat) : (s.setKw v).mem = s.mem := rfl
@[simp] theorem setKw_bus (s : State) (v : Nat) : (s.setKw v).bus = s.bus := rfl
@[simp] theorem setKw_port (s : State) (v : Nat) : (s.setKw v).port = s.port := rfl
@[simp] theorem setKw_responses (s : State) (v : Nat) : (s.setKw v).responses = s.responses := rfl
@[simp] theorem setKw_draws (s : State) (v : Nat) : (s.setKw v).draws = s.draws := rfl

/-! ### setIw -/

@[simp] theorem setIw_cfg (s : State) (v : Nat) : (s.setIw v).cfg = s.cfg := rfl
@[simp] theorem setIw_cipher (s : State) (v : Nat) : (s.setIw v).cipher = s.cipher := rfl
@[simp] theorem setIw_valid (s : State) (v : Nat) : (s.setIw v).valid = s.valid := rfl
@[simp] theorem setIw_status (s : State) (v : Nat) : (s.setIw v).status = s.status := rfl
@[simp] theorem setIw_seq (s : State) (v : Nat) : (s.setIw v).seq = { s.seq with iw := v } := rfl
@[simp] theorem setIw_mem (s : State) (v : Nat) : (s.setIw v).mem = s.mem := rfl
@[simp] theorem setIw_bus (s : State) (v : Nat) : (s.setIw v).bus = s.bus := rfl
@[simp] theorem setIw_port (s : State) (v : Nat) : (s.setIw v).port = s.port := rfl
@[simp] theorem setIw_responses (s : State) (v : Nat) : (s.setIw v).responses = s.responses := rfl
@[simp] theorem setIw_draws (s : State) (v : Nat) : (s.setIw v).draws = s.draws := rfl

/-! ### advancePos -/

@[simp] theorem advancePos_cfg (s : State) (n : Nat) : (s.advancePos n).cfg = s.cfg := rfl
@[simp] theorem advancePos_cipher (s : State) (n : Nat) : (s.advancePos n).cipher = s.cipher := rfl
@[simp] theorem advancePos_valid (s : State) (n : Nat) : (s.advancePos n).valid = s.valid := rfl
@[simp] theorem advancePos_status (s : State) (n : Nat) : (s.advancePos n).status = s.status := rfl
@[simp] theorem advancePos_seq (s : State) (n : Nat) :
    (s.advancePos n).seq = { s.seq with pos := s.seq.pos + BitVec.ofNat 32 n } := rfl
@[simp] theorem advancePos_mem (s : State) (n : Nat) : (s.advancePos n).mem = s.mem := rfl
@[simp] theorem advancePos_bus (s : State) (n : Nat) : (s.advancePos n).bus = s.bus := rfl
@[simp] theorem advancePos_port (s : State) (n : Nat) : (s.advancePos n).port = s.port := rfl
@[simp] theorem advancePos_responses (s : State) (n : Nat) : (s.advancePos n).responses = s.responses := rfl
@[simp] theorem advancePos_draws (s : State) (n : Nat) : (s.advancePos n).draws = s.draws := rfl

/-! ### stepKeystream -/

@[simp] theorem stepKeystream_cfg (s : State) : (stepKeystream s).cfg = s.cfg := rfl
@[simp] theorem stepKeystream_cipher (s : State) : (stepKeystream s).cipher = (keystreamStep s.cipher).cipher := rfl
@[simp] theorem stepKeystream_valid (s : State) : (stepKeystream s).valid = s.valid := rfl
@[simp] theorem stepKeystream_status (s : State) : (stepKeystream s).status = s.status := rfl
@[simp] theorem stepKeystream_seq (s : State) :
    (stepKeystream s).seq = { s.seq with
      t := (keystreamStep s.cipher).t, u := (keystreamStep s.cipher).u, ks := (keystreamStep s.cipher).ks } := rfl
@[simp] theorem stepKeystream_mem (s : State) : (stepKeystream s).mem = s.mem := rfl
@[simp] theorem stepKeystream_bus (s : State) : (stepKeystream s).bus = s.bus := rfl
@[simp] theorem stepKeystream_port (s : State) : (stepKeystream s).port = s.port := rfl
@[simp] theorem stepKeystream_responses (s : State) : (stepKeystream s).responses = s.responses := rfl
@[simp] theorem stepKeystream_draws (s : State) : (stepKeystream s).draws = s.draws := rfl

/-! ### latchSched -/

@[simp] theorem latchSched_cfg (a n : Word) (s : State) : (latchSched a n s).cfg = s.cfg := rfl
@[simp] theorem latchSched_cipher (a n : Word) (s : State) :
    (latchSched a n s).cipher = { s.cipher with S := Table.identity } := rfl
@[simp] theorem latchSched_valid (a n : Word) (s : State) : (latchSched a n s).valid = s.valid := rfl
@[simp] theorem latchSched_status (a n : Word) (s : State) : (latchSched a n s).status = s.status := rfl
@[simp] theorem latchSched_seq (a n : Word) (s : State) :
    (latchSched a n s).seq = { s.seq with
      phase := .ksa, kaddrL := a, klenL := n.setWidth 9, i := 0, id1 := 0, id2 := 0 } := rfl
@[simp] theorem latchSched_mem (a n : Word) (s : State) : (latchSched a n s).mem = s.mem := rfl
@[simp] theorem latchSched_bus (a n : Word) (s : State) : (latchSched a n s).bus = s.bus := rfl
@[simp] theorem latchSched_port (a n : Word) (s : State) : (latchSched a n s).port = s.port := rfl
@[simp] theorem latchSched_responses (a n : Word) (s : State) : (latchSched a n s).responses = s.responses := rfl
@[simp] theorem latchSched_draws (a n : Word) (s : State) : (latchSched a n s).draws = s.draws := rfl

/-! ### latchProc -/

@[simp] theorem latchProc_cfg (a b n : Word) (s : State) : (latchProc a b n s).cfg = s.cfg := rfl
@[simp] theorem latchProc_cipher (a b n : Word) (s : State) : (latchProc a b n s).cipher = s.cipher := rfl
@[simp] theorem latchProc_valid (a b n : Word) (s : State) : (latchProc a b n s).valid = s.valid := rfl
@[simp] theorem latchProc_status (a b n : Word) (s : State) : (latchProc a b n s).status = s.status := rfl
@[simp] theorem latchProc_seq (a b n : Word) (s : State) :
    (latchProc a b n s).seq = { s.seq with
      phase := startPhase s.cfg a b n, srcL := a, dstL := b, lenL := n, pos := 0 } := rfl
@[simp] theorem latchProc_mem (a b n : Word) (s : State) : (latchProc a b n s).mem = s.mem := rfl
@[simp] theorem latchProc_bus (a b n : Word) (s : State) : (latchProc a b n s).bus = s.bus := rfl
@[simp] theorem latchProc_port (a b n : Word) (s : State) : (latchProc a b n s).port = s.port := rfl
@[simp] theorem latchProc_responses (a b n : Word) (s : State) : (latchProc a b n s).responses = s.responses := rfl
@[simp] theorem latchProc_draws (a b n : Word) (s : State) : (latchProc a b n s).draws = s.draws := rfl

/-! ### finishSched -/

@[simp] theorem finishSched_cfg (s : State) : (finishSched s).cfg = s.cfg := rfl
@[simp] theorem finishSched_cipher (s : State) : (finishSched s).cipher = { s.cipher with ca := 0, cb := 0 } := rfl
@[simp] theorem finishSched_valid (s : State) : (finishSched s).valid = true := rfl
@[simp] theorem finishSched_status (s : State) : (finishSched s).status = responseWord true .ok := rfl
@[simp] theorem finishSched_seq (s : State) : (finishSched s).seq = { s.seq with phase := .idle } := rfl
@[simp] theorem finishSched_mem (s : State) : (finishSched s).mem = s.mem := rfl
@[simp] theorem finishSched_bus (s : State) : (finishSched s).bus = s.bus := rfl
@[simp] theorem finishSched_port (s : State) : (finishSched s).port = s.port := rfl
@[simp] theorem finishSched_responses (s : State) :
    (finishSched s).responses = responseWord true .ok :: s.responses := rfl
@[simp] theorem finishSched_draws (s : State) : (finishSched s).draws = s.draws := rfl

/-! ### ksaStep -/

@[simp] theorem ksaStep_cfg (s : State) : (ksaStep s).cfg = s.cfg := rfl
@[simp] theorem ksaStep_cipher (s : State) :
    (ksaStep s).cipher = { s.cipher with S := s.cipher.S.exchange (stepIndex s) (nextId2 s) } := rfl
@[simp] theorem ksaStep_valid (s : State) : (ksaStep s).valid = s.valid := rfl
@[simp] theorem ksaStep_status (s : State) : (ksaStep s).status = s.status := rfl
@[simp] theorem ksaStep_seq (s : State) :
    (ksaStep s).seq = { s.seq with
      i := s.seq.i + 1, id1 := nextKeyIndex s.seq.id1 s.seq.klenL, id2 := nextId2 s } := rfl
@[simp] theorem ksaStep_mem (s : State) : (ksaStep s).mem = s.mem := rfl
@[simp] theorem ksaStep_bus (s : State) :
    (ksaStep s).bus = { kind := .read, addr := keyByteAddr s, width := 1 } :: s.bus := rfl
@[simp] theorem ksaStep_port (s : State) : (ksaStep s).port = s.port := rfl
@[simp] theorem ksaStep_responses (s : State) : (ksaStep s).responses = s.responses := rfl
@[simp] theorem ksaStep_draws (s : State) : (ksaStep s).draws = s.draws := rfl

/-! ### byteStep -/

@[simp] theorem byteStep_cfg (s : State) : (byteStep s).cfg = s.cfg := rfl
@[simp] theorem byteStep_cipher (s : State) : (byteStep s).cipher = (keystreamStep s.cipher).cipher := rfl
@[simp] theorem byteStep_valid (s : State) : (byteStep s).valid = s.valid := rfl
@[simp] theorem byteStep_status (s : State) : (byteStep s).status = s.status := rfl
@[simp] theorem byteStep_seq (s : State) :
    (byteStep s).seq = { s.seq with
      t := (keystreamStep s.cipher).t, u := (keystreamStep s.cipher).u, ks := (keystreamStep s.cipher).ks,
      pos := s.seq.pos + 1 } := rfl
@[simp] theorem byteStep_mem (s : State) :
    (byteStep s).mem = s.mem.write (outputAddr s) (s.mem.read (inputAddr s) ^^^ (keystreamStep s.cipher).ks) := rfl
@[simp] theorem byteStep_bus (s : State) :
    (byteStep s).bus = { kind := .write, addr := outputAddr s, width := 1 } ::
      { kind := .read, addr := inputAddr s, width := 1 } :: s.bus := rfl
@[simp] theorem byteStep_port (s : State) : (byteStep s).port = s.port := rfl
@[simp] theorem byteStep_responses (s : State) : (byteStep s).responses = s.responses := rfl
@[simp] theorem byteStep_draws (s : State) : (byteStep s).draws = s.draws := rfl

end Sys2Proof.Machine
end

