-- ==== Sys2Proof/Laws/Table.lean ====
section
/-! SUPPORT. Laws of the permutation table: read after write, what a swap does, and that the identity is a permutation
and a swap keeps one. -/

namespace Sys2Proof.Machine

@[simp] theorem Table.entry_put_same (T : Table) (i v : Byte) : (T.put i v).entry i = v := by
  simp [Table.entry, Table.put]

theorem Table.entry_put_ne (T : Table) {i j : Byte} (v : Byte) (h : i ≠ j) : (T.put i v).entry j = T.entry j := by
  have h' : i.toNat ≠ j.toNat := fun e => h (BitVec.eq_of_toNat_eq e)
  simp [Table.entry, Table.put, Vector.getElem_set_ne, h']

theorem Table.entry_put (T : Table) (i j v : Byte) : (T.put i v).entry j = if i = j then v else T.entry j := by
  split
  · next h => subst h; simp
  · next h => exact T.entry_put_ne v h

@[simp] theorem Table.entry_identity (i : Byte) : Table.entry Table.identity i = i := by
  unfold Table.entry Table.identity
  rw [Vector.getElem_ofFn]
  exact BitVec.eq_of_toNat_eq (by simp)

theorem Table.ext_entry {T T' : Table} (h : ∀ i, T.entry i = T'.entry i) : T = T' := by
  refine Vector.ext fun i hi => ?_
  simpa [Table.entry, Nat.mod_eq_of_lt hi] using h (BitVec.ofNat 8 i)

/-- What a swap does to every entry, the swapped ones included (R14). -/
theorem Table.entry_exchange (T : Table) (i j k : Byte) :
    (T.exchange i j).entry k = T.entry (Equiv.swap i j k) := by
  simp only [Table.exchange, Table.entry_put, Equiv.swap_apply_def]
  by_cases hj : j = k
  · subst hj
    by_cases hi : i = j <;> simp [hi, eq_comm]
  · by_cases hi : i = k
    · subst hi; simp [hj]
    · simp [hi, hj, eq_comm (a := k)]

/-- A swap of an entry with itself leaves the table as it was (R14, R109). -/
@[simp] theorem Table.exchange_self (T : Table) (i : Byte) : T.exchange i i = T :=
  Table.ext_entry fun k => by simp [Table.entry_exchange]

theorem Table.isPermutation_iff (T : Table) : T.IsPermutation ↔ Function.Bijective T.entry :=
  (Function.bijective_iff_existsUnique _).symm

theorem Table.identity_isPermutation : Table.IsPermutation Table.identity := by
  intro v
  exact ⟨v, by simp, by simp⟩

/-- A swap keeps a permutation a permutation (R22). -/
theorem Table.exchange_isPermutation {T : Table} (h : T.IsPermutation) (i j : Byte) :
    (T.exchange i j).IsPermutation := by
  rw [Table.isPermutation_iff] at *
  have : (T.exchange i j).entry = T.entry ∘ Equiv.swap i j := funext (Table.entry_exchange T i j)
  rw [this]
  exact h.comp (Equiv.swap i j).bijective

end Sys2Proof.Machine
end

