-- ==== Sys2Proof/Laws/KeySchedule.lean ====
section
/-! SUPPORT. Laws of the key scheduler: what the checks mean, what the state is after any number of key-schedule steps,
and that the table of the reference is a permutation. -/

namespace Sys2Proof.Machine

theorem keyLengthValid_iff (klen : Word) : keyLengthValid klen = true ↔ 1 ≤ klen.toNat ∧ klen.toNat ≤ 256 := by
  unfold keyLengthValid Config.keyMin Config.keyMax
  simp

theorem rangeValid_iff (cfg : Config) (a n : Word) :
    rangeValid cfg a n = true ↔ a.toNat + n.toNat ≤ cfg.memBytes := by
  simp [rangeValid]

/-- SCHED is accepted exactly when the key length and the key range are legal (R101). -/
theorem schedCheck_none_iff (cfg : Config) (kaddr klen : Word) :
    schedCheck cfg kaddr klen = none ↔
      1 ≤ klen.toNat ∧ klen.toNat ≤ 256 ∧ kaddr.toNat + klen.toNat ≤ cfg.memBytes := by
  unfold schedCheck
  by_cases h1 : keyLengthValid klen = true
  · by_cases h2 : rangeValid cfg kaddr klen = true
    · simp [h1, h2, (keyLengthValid_iff _).1 h1, (rangeValid_iff _ _ _).1 h2]
    · have := mt (rangeValid_iff cfg kaddr klen).2 h2
      simp [h1, h2, this]
  · have := mt (keyLengthValid_iff klen).2 h1
    simp [h1]
    tauto

theorem nextKeyIndex_toNat {id1 : Byte} {klen : BitVec 9} {n L : Nat} (hL : klen.toNat = L) (h1 : 1 ≤ L)
    (h2 : L ≤ 256) (h : id1.toNat = n % L) : (nextKeyIndex id1 klen).toNat = (n + 1) % L := by
  have hlt : n % L < L := Nat.mod_lt _ (by omega)
  have hw : (id1.setWidth 9 + 1).toNat = n % L + 1 := by simp [h]; omega
  have hs : (n + 1) % L = if n % L + 1 = L then 0 else n % L + 1 := by
    rw [Nat.add_mod]
    rcases Nat.lt_or_ge 1 L with hl | hl
    · rw [Nat.mod_eq_of_lt hl]
      split
      · next e => rw [e, Nat.mod_self]
      · exact Nat.mod_eq_of_lt (by omega)
    · have : L = 1 := by omega
      subst this
      simp [Nat.mod_one]
  have hc : id1.setWidth 9 + 1 = klen ↔ n % L + 1 = L := by
    rw [← hw, ← hL]
    exact ⟨fun e => by rw [e], BitVec.eq_of_toNat_eq⟩
  unfold nextKeyIndex
  rw [hs]
  simp only [hc]
  split
  · rfl
  · simp [h]; omega

/-- The state `s` after `n` key-schedule steps of a SCHED accepted in `s0` (R34, R103). -/
structure KsaState (s0 : State) (kaddr klen : Word) (n : Nat) (s : State) : Prop where
  table : s.cipher.S = (scheduleAfter (keyAt s0.mem kaddr) klen.toNat n).1
  id2 : s.seq.id2 = (scheduleAfter (keyAt s0.mem kaddr) klen.toNat n).2
  id1 : s.seq.id1.toNat = n % klen.toNat
  i : s.seq.i = BitVec.ofNat 9 n
  phase : s.seq.phase = .ksa
  kaddrL : s.seq.kaddrL = kaddr
  klenL : s.seq.klenL.toNat = klen.toNat
  ca : s.cipher.ca = s0.cipher.ca
  cb : s.cipher.cb = s0.cipher.cb
  kw : s.seq.kw = s0.seq.kw
  iw : s.seq.iw = s0.seq.iw
  srcL : s.seq.srcL = s0.seq.srcL
  dstL : s.seq.dstL = s0.seq.dstL
  lenL : s.seq.lenL = s0.seq.lenL
  pos : s.seq.pos = s0.seq.pos
  t : s.seq.t = s0.seq.t
  u : s.seq.u = s0.seq.u
  ks : s.seq.ks = s0.seq.ks
  cfg : s.cfg = s0.cfg
  valid : s.valid = s0.valid
  status : s.status = s0.status
  mem : s.mem = s0.mem
  bus : s.bus = (((List.range n).map fun i =>
    ({ kind := .read, addr := kaddr.toNat + i % klen.toNat, width := 1 } : Access)).reverse) ++ s0.bus
  port : s.port = s0.port
  responses : s.responses = s0.responses
  draws : s.draws = s0.draws

theorem latchSched_ksaState {s : State} {kaddr klen : Word} (h2 : klen.toNat ≤ 256) :
    KsaState s kaddr klen 0 (latchSched kaddr klen s) := by
  constructor <;> simp [scheduleAfter]
  omega

/-- One key-schedule step goes from the state after `n` steps to the state after `n + 1` (R103). -/
theorem ksaStep_ksaState {s0 s : State} {kaddr klen : Word} {n : Nat} (h1 : 1 ≤ klen.toNat)
    (h2 : klen.toNat ≤ 256) (h : KsaState s0 kaddr klen n s) : KsaState s0 kaddr klen (n + 1) (ksaStep s) := by
  have hidx : stepIndex s = BitVec.ofNat 8 n := by
    apply BitVec.eq_of_toNat_eq
    simp [stepIndex, h.i]
  have hkey : keyByteAddr s = kaddr.toNat + n % klen.toNat := by simp [keyByteAddr, h.kaddrL, h.id1]
  have hid2 : nextId2 s = (scheduleAfter (keyAt s0.mem kaddr) klen.toNat (n + 1)).2 := by
    simp [nextId2, keyByte, hkey, hidx, h.table, h.id2, h.mem, scheduleAfter, keyAt]
  constructor
  · simp [hid2, hidx, h.table, scheduleAfter]
  · simpa using hid2
  · simpa using nextKeyIndex_toNat h.klenL h1 h2 h.id1
  · simp [h.i, BitVec.ofNat_add]
  all_goals simp [h.phase, h.kaddrL, h.klenL, h.ca, h.cb, h.kw, h.iw, h.srcL, h.dstL,
    h.lenL, h.pos, h.t, h.u, h.ks, h.cfg, h.valid, h.status, h.mem, h.bus,
    h.port, h.responses, h.draws, hkey, List.range_succ]

/-- The state after `n` key-schedule steps of an accepted SCHED (R34, R103). -/
theorem ksaSteps_ksaState {s : State} {kaddr klen : Word} (h1 : 1 ≤ klen.toNat) (h2 : klen.toNat ≤ 256) (n : Nat) :
    KsaState s kaddr klen n (ksaStep^[n] (latchSched kaddr klen s)) := by
  induction n with
  | zero => exact latchSched_ksaState h2
  | succ n ih => rw [Function.iterate_succ_apply']; exact ksaStep_ksaState h1 h2 ih

/-- After any number of steps the reference table is a permutation (R22, R114). -/
theorem scheduleAfter_isPermutation (key : Nat → Byte) (klen n : Nat) :
    (scheduleAfter key klen n).1.IsPermutation := by
  induction n with
  | zero => exact Table.identity_isPermutation
  | succ n ih => exact Table.exchange_isPermutation ih _ _

/-- The reference table depends only on the key bytes the steps use (R107, R111). -/
theorem scheduleAfter_congr {key key' : Nat → Byte} {klen klen' : Nat} {n : Nat}
    (h : ∀ i < n, key (i % klen) = key' (i % klen')) : scheduleAfter key klen n = scheduleAfter key' klen' n := by
  induction n with
  | zero => rfl
  | succ n ih => simp [scheduleAfter, ih fun i hi => h i (by omega), h n (by omega)]

/-- An accepted SCHED is its completion after its steps (R101). -/
theorem execSched_eq {s : State} {kaddr klen : Word} (h : schedCheck s.cfg kaddr klen = none) :
    execSched kaddr klen s = .next (finishSched (ksaStep^[256] (latchSched kaddr klen s))) := by
  unfold execSched
  rw [h]

/-- What an accepted SCHED leaves, field by field (R101, R104). -/
structure SchedResult (s : State) (kaddr klen : Word) (s' : State) : Prop where
  cipher : s'.cipher = scheduled (keyAt s.mem kaddr) klen.toNat
  valid : s'.valid = true
  status : s'.status = responseWord true .ok
  responses : s'.responses = responseWord true .ok :: s.responses
  mem : s'.mem = s.mem
  bus : s'.bus = (schedTrace kaddr klen).reverse ++ s.bus
  cfg : s'.cfg = s.cfg
  port : s'.port = s.port
  draws : s'.draws = s.draws
  phase : s'.seq.phase = .idle
  srcL : s'.seq.srcL = s.seq.srcL
  dstL : s'.seq.dstL = s.seq.dstL
  lenL : s'.seq.lenL = s.seq.lenL
  pos : s'.seq.pos = s.seq.pos
  t : s'.seq.t = s.seq.t
  u : s'.seq.u = s.seq.u
  ks : s'.seq.ks = s.seq.ks
  kw : s'.seq.kw = s.seq.kw
  iw : s'.seq.iw = s.seq.iw

/-- The completion of a SCHED after its 256 steps (R104). -/
theorem finishSched_ksaState {s t : State} {kaddr klen : Word} (k : KsaState s kaddr klen 256 t) :
    SchedResult s kaddr klen (finishSched t) where
  cipher := by simp only [finishSched_cipher, k.table, scheduled, scheduleTable]
  valid := rfl
  status := rfl
  responses := by simp only [finishSched_responses, k.responses]
  mem := k.mem
  bus := k.bus
  cfg := k.cfg
  port := k.port
  draws := k.draws
  phase := rfl
  srcL := k.srcL
  dstL := k.dstL
  lenL := k.lenL
  pos := k.pos
  t := k.t
  u := k.u
  ks := k.ks
  kw := k.kw
  iw := k.iw

/-- An accepted SCHED answers a next state, and what it leaves (R101, R104). -/
theorem execSched_accepted {s : State} {kaddr klen : Word} (h : schedCheck s.cfg kaddr klen = none) :
    ∃ t, execSched kaddr klen s = .next t ∧ SchedResult s kaddr klen t := by
  obtain ⟨h1, h2, -⟩ := (schedCheck_none_iff _ _ _).1 h
  exact ⟨_, execSched_eq h, finishSched_ksaState (ksaSteps_ksaState h1 h2 256)⟩

end Sys2Proof.Machine
end

