-- ==== Sys2Proof/Laws/Stream.lean ====
section
/-! SUPPORT. Laws of the stream processor: the keystream of a cipher state, the bytes a transfer leaves in memory, and
what the state is after any number of bytes and chunks, the same on both paths. -/

namespace Sys2Proof.Machine

/-! ### The keystream -/

@[simp] theorem Cipher.advance_zero (c : Cipher) : c.advance 0 = c := rfl

theorem Cipher.advance_succ (c : Cipher) (n : Nat) : c.advance (n + 1) = (keystreamStep (c.advance n)).cipher := rfl

theorem Cipher.advance_add (c : Cipher) (n m : Nat) : c.advance (n + m) = (c.advance n).advance m := by
  induction m with
  | zero => rfl
  | succ m ih => rw [← Nat.add_assoc, Cipher.advance_succ, Cipher.advance_succ, ih]

theorem Cipher.keystream_advance (c : Cipher) (n p : Nat) : (c.advance n).keystream p = c.keystream (n + p) := by
  simp [Cipher.keystream, Cipher.advance_add]

theorem Cipher.advance_ca (c : Cipher) (n : Nat) : (c.advance n).ca = c.ca + BitVec.ofNat 8 n := by
  induction n with
  | zero => simp
  | succ n ih =>
    have : (keystreamStep (c.advance n)).cipher.ca = (c.advance n).ca + 1 := rfl
    rw [Cipher.advance_succ, this, ih, BitVec.ofNat_add, BitVec.add_assoc]
    rfl

/-- The keystream steps keep a permutation a permutation (R22). -/
theorem Cipher.advance_isPermutation {c : Cipher} (h : c.S.IsPermutation) (n : Nat) :
    (c.advance n).S.IsPermutation := by
  induction n with
  | zero => exact h
  | succ n ih => exact Table.exchange_isPermutation ih _ _

/-! ### The bytes of a transfer -/

/-- Memory after `n` bytes read from `a` on are combined with the keystream of `c` and written from `b` on, one by one. -/
def xorBytes (c : Cipher) (a b : Nat) : Nat → Memory → Memory
  | 0, m => m
  | n + 1, m =>
    let m' := xorBytes c a b n m
    m'.write (b + n) (m'.read (a + n) ^^^ c.keystream n)

theorem xorBytes_add (c : Cipher) (a b n k : Nat) (m : Memory) :
    xorBytes c a b (n + k) m = xorBytes (c.advance n) (a + n) (b + n) k (xorBytes c a b n m) := by
  induction k with
  | zero => rfl
  | succ k ih =>
    rw [← Nat.add_assoc]
    simp only [xorBytes, ih, Cipher.keystream_advance, Nat.add_assoc]

theorem xorBytes_wf {m : Memory} (h : m.wf) (c : Cipher) (a b n : Nat) : (xorBytes c a b n m).wf := by
  induction n with
  | zero => exact h
  | succ n ih => exact Memory.write_wf ih _ _

theorem xorBytes_within {m : Memory} {N : Nat} (h : m.within N) (c : Cipher) (a b n : Nat) (hb : b + n ≤ N) :
    (xorBytes c a b n m).within N := by
  induction n with
  | zero => exact h
  | succ n ih => exact Memory.write_within (ih (by omega)) (by omega) _

/-- A byte outside the output range is as before. -/
theorem xorBytes_read_outside (c : Cipher) (a b n : Nat) (m : Memory) {x : Nat} (h : x < b ∨ b + n ≤ x) :
    (xorBytes c a b n m).read x = m.read x := by
  induction n with
  | zero => rfl
  | succ n ih =>
    simp only [xorBytes]
    rw [Memory.read_write_ne _ _ (by omega), ih (by omega)]

/-- The input and the output range of `n` bytes are disjoint or identical (R64). -/
def RangesApart (a b n : Nat) : Prop := a = b ∨ a + n ≤ b ∨ b + n ≤ a

/-- Byte `p` of the output is byte `p` of the input combined with keystream byte `p` (R64, R123). -/
theorem xorBytes_read_inside {m : Memory} (hm : m.wf) (c : Cipher) {a b n : Nat} (h : RangesApart a b n) {p : Nat}
    (hp : p < n) : (xorBytes c a b n m).read (b + p) = m.read (a + p) ^^^ c.keystream p := by
  induction n with
  | zero => omega
  | succ n ih =>
    simp only [xorBytes]
    rcases Nat.lt_or_eq_of_le (Nat.lt_succ_iff.1 hp) with hlt | rfl
    · rw [Memory.read_write_ne _ _ (by omega), ih (by unfold RangesApart at *; omega) hlt]
    · rw [Memory.read_write_same (xorBytes_wf hm c a b p)]
      rw [xorBytes_read_outside c a b p m (by unfold RangesApart at h; omega)]

/-- The bytes of a word land where the byte path would put them, under either byte order (R55, R150). -/
theorem writeWord_xor (order : ByteOrder) (W : Nat) (m : Memory) (c : Cipher) {a b : Nat} (f : Nat → Byte)
    (hf : ∀ k < W, f k = c.keystream k) (h : RangesApart a b W) :
    m.writeWord order W b (m.readWord order W a ^^^ pack order W f) = xorBytes c a b W m := by
  have lane : ∀ k < W, laneByte order W (m.readWord order W a ^^^ pack order W f) k =
      m.read (a + k) ^^^ c.keystream k := by
    intro k hk
    rw [laneByte_xor, Memory.readWord, laneByte_pack order W _ k hk, laneByte_pack order W f k hk, hf k hk]
  generalize m.readWord order W a ^^^ pack order W f = v at lane
  have run : ∀ n ≤ W, (List.range n).foldl (fun m' k => m'.write (b + k) (laneByte order W v k)) m =
      xorBytes c a b n m := by
    intro n hn
    induction n with
    | zero => rfl
    | succ n ih =>
      rw [List.range_succ, List.foldl_append, ih (by omega)]
      simp only [List.foldl_cons, List.foldl_nil, xorBytes, lane n (by omega)]
      rw [xorBytes_read_outside c a b n m (by unfold RangesApart at h; omega)]
  exact run W (Nat.le_refl W)

/-! ### The keystream of one chunk -/

theorem gatherKeystream_length (n : Nat) (s : State) : (gatherKeystream n s).1.length = n := by
  induction n generalizing s with
  | zero => rfl
  | succ n ih => simp [gatherKeystream, ih]

/-- The `k`-th byte gathered is the `k`-th keystream byte (R145). -/
theorem gatherKeystream_getD (n : Nat) (s : State) {k : Nat} (h : k < n) :
    (gatherKeystream n s).1.getD k 0 = s.cipher.keystream k := by
  induction n generalizing s k with
  | zero => omega
  | succ n ih =>
    cases k with
    | zero => simp [gatherKeystream, Cipher.keystream]
    | succ k =>
      have hc : (keystreamStep s.cipher).cipher = s.cipher.advance 1 := rfl
      have := ih (stepKeystream s) (k := k) (by omega)
      rw [stepKeystream_cipher, hc, Cipher.keystream_advance] at this
      rw [Nat.add_comm k 1, ← this, Nat.add_comm 1 k]
      rfl

/-- Gathering the keystream changes the cipher state and T, U, KS only (R145). -/
theorem gatherKeystream_state (n : Nat) (s : State) :
    ∃ t u ks, (gatherKeystream n s).2 =
      { s with cipher := s.cipher.advance n, seq := { s.seq with t := t, u := u, ks := ks } } := by
  induction n generalizing s with
  | zero => exact ⟨s.seq.t, s.seq.u, s.seq.ks, rfl⟩
  | succ n ih =>
    obtain ⟨t, u, ks, e⟩ := ih (stepKeystream s)
    refine ⟨t, u, ks, ?_⟩
    have hc : (keystreamStep s.cipher).cipher = s.cipher.advance 1 := rfl
    simp [gatherKeystream, e, hc, ← Cipher.advance_add, Nat.add_comm]

/-! ### Transfers -/

/-- The accesses of one transfer of `n` bytes from `a` to `b` (R60). -/
def transferAccesses (a b n : Nat) : List Access :=
  [{ kind := .read, addr := a, width := n }, { kind := .write, addr := b, width := n }]

/-- The state `s` after `n` bytes transferred from `s0`, with the accesses `tr` made (R35, R36). -/
structure TransferState (s0 : State) (n : Nat) (tr : List Access) (s : State) : Prop where
  cipher : s.cipher = s0.cipher.advance n
  mem : s.mem = xorBytes s0.cipher (inputAddr s0) (outputAddr s0) n s0.mem
  pos : s.seq.pos.toNat = s0.seq.pos.toNat + n
  bus : s.bus = tr.reverse ++ s0.bus
  phase : s.seq.phase = s0.seq.phase
  srcL : s.seq.srcL = s0.seq.srcL
  dstL : s.seq.dstL = s0.seq.dstL
  lenL : s.seq.lenL = s0.seq.lenL
  i : s.seq.i = s0.seq.i
  id1 : s.seq.id1 = s0.seq.id1
  id2 : s.seq.id2 = s0.seq.id2
  kaddrL : s.seq.kaddrL = s0.seq.kaddrL
  klenL : s.seq.klenL = s0.seq.klenL
  cfg : s.cfg = s0.cfg
  valid : s.valid = s0.valid
  status : s.status = s0.status
  port : s.port = s0.port
  responses : s.responses = s0.responses
  draws : s.draws = s0.draws

theorem TransferState.refl (s : State) : TransferState s 0 [] s := by
  constructor <;> simp [xorBytes]

theorem TransferState.inputAddr_eq {s0 s : State} {n : Nat} {tr : List Access} (h : TransferState s0 n tr s) :
    inputAddr s = inputAddr s0 + n := by
  simp only [inputAddr, h.srcL, h.pos]; omega

theorem TransferState.outputAddr_eq {s0 s : State} {n : Nat} {tr : List Access} (h : TransferState s0 n tr s) :
    outputAddr s = outputAddr s0 + n := by
  simp only [outputAddr, h.dstL, h.pos]; omega

theorem TransferState.trans {s0 s1 s2 : State} {n k : Nat} {tr tr' : List Access} (h : TransferState s0 n tr s1)
    (h' : TransferState s1 k tr' s2) : TransferState s0 (n + k) (tr ++ tr') s2 := by
  constructor
  · rw [h'.cipher, h.cipher, Cipher.advance_add]
  · rw [h'.mem, h.mem, xorBytes_add, h.inputAddr_eq, h.outputAddr_eq, h.cipher]
  · rw [h'.pos, h.pos]; omega
  · rw [h'.bus, h.bus, List.reverse_append, List.append_assoc]
  · rw [h'.phase, h.phase]
  · rw [h'.srcL, h.srcL]
  · rw [h'.dstL, h.dstL]
  · rw [h'.lenL, h.lenL]
  · rw [h'.i, h.i]
  · rw [h'.id1, h.id1]
  · rw [h'.id2, h.id2]
  · rw [h'.kaddrL, h.kaddrL]
  · rw [h'.klenL, h.klenL]
  · rw [h'.cfg, h.cfg]
  · rw [h'.valid, h.valid]
  · rw [h'.status, h.status]
  · rw [h'.port, h.port]
  · rw [h'.responses, h.responses]
  · rw [h'.draws, h.draws]

/-- One byte of the byte path transfers one byte (R35, R126). -/
theorem byteStep_transfer {s : State} (h : s.seq.pos.toNat + 1 < 2 ^ 32) :
    TransferState s 1 (transferAccesses (inputAddr s) (outputAddr s) 1) (byteStep s) := by
  constructor
  · rfl
  · rfl
  · simp; omega
  all_goals rfl

/-- One chunk of the wide path transfers `W` bytes, as `W` bytes of the byte path would (R36, R145, R150). -/
theorem chunkStep_transfer {s : State} (hpos : s.seq.pos.toNat + s.cfg.chunkBytes < 2 ^ 32)
    (h : RangesApart (inputAddr s) (outputAddr s) s.cfg.chunkBytes) :
    TransferState s s.cfg.chunkBytes (transferAccesses (inputAddr s) (outputAddr s) s.cfg.chunkBytes)
      (chunkStep s) := by
  obtain ⟨t, u, ks, e⟩ := gatherKeystream_state s.cfg.chunkBytes s
  have hm := writeWord_xor s.cfg.byteOrder s.cfg.chunkBytes s.mem s.cipher
    (fun k => (gatherKeystream s.cfg.chunkBytes s).1.getD k 0) (fun k hk => gatherKeystream_getD _ s hk) h
  constructor
  · simp [chunkStep, e]
  · rw [← hm]
    simp only [chunkStep, e]
    rfl
  · simp [chunkStep, e]; omega
  all_goals simp [chunkStep, e, transferAccesses, inputAddr, outputAddr]

/-- KW and IW of a chunk keep their `8·W` bits (R31). -/
theorem chunkStep_wordWidth (s : State) :
    (chunkStep s).seq.kw < 2 ^ (8 * s.cfg.chunkBytes) ∧ (chunkStep s).seq.iw < 2 ^ (8 * s.cfg.chunkBytes) := by
  obtain ⟨t, u, ks, e⟩ := gatherKeystream_state s.cfg.chunkBytes s
  simp only [chunkStep, e]
  exact ⟨pack_lt _ _ _, pack_lt _ _ _⟩

/-- A chunk changes S, CA, CB, memory, the memory port and the sequencer, and nothing else (R145). -/
theorem chunkStep_frame (s : State) :
    (chunkStep s).cfg = s.cfg ∧ (chunkStep s).valid = s.valid ∧ (chunkStep s).status = s.status ∧
      (chunkStep s).port = s.port ∧ (chunkStep s).responses = s.responses ∧ (chunkStep s).draws = s.draws ∧
      (chunkStep s).cipher = s.cipher.advance s.cfg.chunkBytes := by
  obtain ⟨t, u, ks, e⟩ := gatherKeystream_state s.cfg.chunkBytes s
  simp [chunkStep, e]

@[simp] theorem byteStep_kw (s : State) : (byteStep s).seq.kw = s.seq.kw := rfl

@[simp] theorem byteStep_iw (s : State) : (byteStep s).seq.iw = s.seq.iw := rfl

/-- The byte path leaves KW and IW as they were (R35). -/
theorem byteSteps_words (s : State) (n : Nat) :
    (byteStep^[n] s).seq.kw = s.seq.kw ∧ (byteStep^[n] s).seq.iw = s.seq.iw := by
  induction n with
  | zero => exact ⟨rfl, rfl⟩
  | succ n ih => rw [Function.iterate_succ_apply']; exact ih

/-- The state after `n` bytes of the byte path (R60, R126). -/
theorem byteSteps_transfer {s : State} (n : Nat) (h : s.seq.pos.toNat + n < 2 ^ 32) :
    TransferState s n ((List.range n).flatMap fun j => transferAccesses (inputAddr s + j) (outputAddr s + j) 1)
      (byteStep^[n] s) := by
  induction n with
  | zero => exact TransferState.refl s
  | succ n ih =>
    have k := ih (by omega)
    have := k.trans (byteStep_transfer (by rw [k.pos]; omega))
    rw [k.inputAddr_eq, k.outputAddr_eq] at this
    rw [Function.iterate_succ_apply', List.range_succ, List.flatMap_append]
    simpa using this

/-- The state after `n` chunks of the wide path (R60, R144). -/
theorem chunkSteps_transfer {s : State} (n : Nat) (h : s.seq.pos.toNat + n * s.cfg.chunkBytes < 2 ^ 32)
    (ha : RangesApart (inputAddr s) (outputAddr s) (n * s.cfg.chunkBytes)) :
    TransferState s (n * s.cfg.chunkBytes)
      ((List.range n).flatMap fun c => transferAccesses (inputAddr s + c * s.cfg.chunkBytes)
        (outputAddr s + c * s.cfg.chunkBytes) s.cfg.chunkBytes)
      (chunkStep^[n] s) := by
  induction n with
  | zero => simpa using TransferState.refl s
  | succ n ih =>
    rw [Nat.succ_mul] at h ha
    have k := ih (by omega) (by unfold RangesApart at *; omega)
    have step := chunkStep_transfer (s := chunkStep^[n] s) (by rw [k.pos, k.cfg]; omega)
      (by rw [k.inputAddr_eq, k.outputAddr_eq, k.cfg]; unfold RangesApart at *; omega)
    have := k.trans step
    rw [k.inputAddr_eq, k.outputAddr_eq, k.cfg] at this
    rw [Function.iterate_succ_apply', List.range_succ, List.flatMap_append, Nat.succ_mul]
    simpa using this

/-! ### PROC -/

/-- PROC is accepted exactly when the context is valid and, with LEN > 0, both ranges lie in memory and are disjoint or
identical (R121, R125). -/
theorem procCheck_none_iff (cfg : Config) (valid : Bool) (src dst len : Word) :
    procCheck cfg valid src dst len = none ↔ valid = true ∧ (len = 0 ∨
      (src.toNat + len.toNat ≤ cfg.memBytes ∧ dst.toNat + len.toNat ≤ cfg.memBytes ∧
        rangesOverlap src dst len = false)) := by
  unfold procCheck rangeValid
  cases valid <;> by_cases h0 : len = 0 <;> by_cases h1 : src.toNat + len.toNat ≤ cfg.memBytes <;>
    by_cases h2 : dst.toNat + len.toNat ≤ cfg.memBytes <;> by_cases h3 : rangesOverlap src dst len = true <;>
    simp [h0, h1, h2, h3]

theorem rangesOverlap_eq_false_iff (src dst len : Word) :
    rangesOverlap src dst len = false ↔ RangesApart src.toNat dst.toNat len.toNat := by
  have h : src = dst ↔ src.toNat = dst.toNat := ⟨fun e => by rw [e], BitVec.eq_of_toNat_eq⟩
  unfold rangesOverlap RangesApart
  simp [h]
  omega

theorem chunkCount_mul_le (cfg : Config) (src dst len : Word) :
    chunkCount cfg src dst len * cfg.chunkBytes ≤ len.toNat := by
  unfold chunkCount
  split
  · exact Nat.div_mul_le_self _ _
  · simp

/-- The transfers of a PROC whose ranges are legal move LEN bytes, whichever path they take (R121, R127, R150). -/
theorem transfer_transferState {s : State} {src dst len : Word} (h : rangesOverlap src dst len = false) :
    TransferState (latchProc src dst len s) len.toNat (procTrace s.cfg src dst len) (transfer src dst len s) := by
  have hap := (rangesOverlap_eq_false_iff src dst len).1 h
  have hle := chunkCount_mul_le s.cfg src dst len
  have hlen := len.isLt
  have hi : inputAddr (latchProc src dst len s) = src.toNat := by simp [inputAddr]
  have ho : outputAddr (latchProc src dst len s) = dst.toNat := by simp [outputAddr]
  have k := chunkSteps_transfer (s := latchProc src dst len s) (chunkCount s.cfg src dst len)
    (by simp; omega) (by rw [hi, ho]; simp only [latchProc_cfg]; unfold RangesApart at *; omega)
  have k' := byteSteps_transfer (s := chunkStep^[chunkCount s.cfg src dst len] (latchProc src dst len s))
    (len.toNat - chunkCount s.cfg src dst len * s.cfg.chunkBytes)
    (by rw [k.pos]; simp only [latchProc_seq, latchProc_cfg]; simp; omega)
  have := k.trans k'
  rw [k.inputAddr_eq, k.outputAddr_eq, hi, ho] at this
  simp only [latchProc_cfg] at this
  rw [Nat.add_sub_cancel' hle] at this
  simpa [transfer, procTrace, transferTrace, transferAccesses, Nat.add_assoc] using this

theorem execProc_eq {s : State} {src dst len : Word} (h : procCheck s.cfg s.valid src dst len = none)
    (h0 : len ≠ 0) : execProc src dst len s = .next ((transfer src dst len s).respond .ok) := by
  unfold execProc
  rw [h]
  exact if_neg h0

/-- What an accepted PROC of LEN > 0 leaves, field by field (R121, R127). -/
structure ProcResult (s : State) (src dst len : Word) (t : State) : Prop where
  cipher : t.cipher = s.cipher.advance len.toNat
  valid : t.valid = true
  status : t.status = responseWord true .ok
  responses : t.responses = responseWord true .ok :: s.responses
  mem : t.mem = xorBytes s.cipher src.toNat dst.toNat len.toNat s.mem
  bus : t.bus = (procTrace s.cfg src dst len).reverse ++ s.bus
  cfg : t.cfg = s.cfg
  port : t.port = s.port
  draws : t.draws = s.draws
  phase : t.seq.phase = .idle
  i : t.seq.i = s.seq.i
  id1 : t.seq.id1 = s.seq.id1
  id2 : t.seq.id2 = s.seq.id2
  kaddrL : t.seq.kaddrL = s.seq.kaddrL
  klenL : t.seq.klenL = s.seq.klenL
  words : wideSelected s.cfg src dst len = false → t.seq.kw = s.seq.kw ∧ t.seq.iw = s.seq.iw

/-- A PROC on the byte path leaves KW and IW as they were (R141). -/
theorem transfer_words {s : State} {src dst len : Word} (h : wideSelected s.cfg src dst len = false) :
    (transfer src dst len s).seq.kw = s.seq.kw ∧ (transfer src dst len s).seq.iw = s.seq.iw := by
  simp only [transfer, chunkCount, h]
  exact byteSteps_words _ _

/-- An accepted PROC of LEN > 0 answers a next state, and what it leaves (R121, R127). -/
theorem execProc_accepted {s : State} {src dst len : Word} (h : procCheck s.cfg s.valid src dst len = none)
    (h0 : len ≠ 0) : ∃ t, execProc src dst len s = .next t ∧ ProcResult s src dst len t := by
  obtain ⟨hv, h1⟩ := (procCheck_none_iff _ _ _ _ _).1 h
  have k := transfer_transferState (s := s) (h1.resolve_left h0).2.2
  refine ⟨_, execProc_eq h h0, ?_⟩
  constructor <;> simp [k.cipher, k.valid, k.mem, k.bus, k.cfg, k.port, k.draws, k.responses, k.i, k.id1, k.id2,
    k.kaddrL, k.klenL, hv, inputAddr, outputAddr]
  exact fun h => transfer_words h

/-- A PROC of LEN = 0 on a valid context answers OK and does nothing else (R124). -/
theorem execProc_zero {s : State} {src dst : Word} (h : s.valid = true) :
    execProc src dst 0 s = .next (s.respond .ok) := by
  simp [execProc, procCheck, h]

end Sys2Proof.Machine
end

