-- ==== Sys2Proof/Laws/Sequencer.lean ====
section
/-! SUPPORT. Laws of the phase machine: what any number of micro-steps of an accepted command gives, in terms of the
key-schedule steps, chunks and bytes of the command-level meanings (R33 to R37). -/

namespace Sys2Proof.Machine

@[simp] theorem tick_idle {s : State} (h : s.seq.phase = .idle) : tick s = s := by simp [tick, h]

theorem ticks_idle {s : State} (h : s.seq.phase = .idle) (n : Nat) : tick^[n] s = s := by
  induction n with
  | zero => rfl
  | succ n ih => rw [Function.iterate_succ_apply', ih, tick_idle h]

theorem acceptInstr_sched {s : State} {kaddr klen : Word} (h : schedCheck s.cfg kaddr klen = none) :
    acceptInstr (.sched kaddr klen) s = latchSched kaddr klen s := by
  simp [acceptInstr, h]

theorem acceptInstr_proc {s : State} {src dst len : Word} (h : procCheck s.cfg s.valid src dst len = none)
    (h0 : len ≠ 0) : acceptInstr (.proc src dst len) s = latchProc src dst len s := by
  unfold acceptInstr
  simp only [h]
  exact if_neg h0

/-- A micro-step never changes the straps, the command port or the draw number (R28, R33). -/
theorem tick_frame (s : State) : (tick s).cfg = s.cfg ∧ (tick s).port = s.port ∧ (tick s).draws = s.draws := by
  obtain ⟨h1, -, -, h2, -, h3, -⟩ := chunkStep_frame s
  unfold tick tickKsa tickWide tickByte
  cases s.seq.phase <;> simp only
  · simp
  · split <;> simp
  · split
    · split <;> simp [h1, h2, h3, State.enterPhase]
    · exact ⟨h1, h2, h3⟩
  · split <;> simp

theorem ticks_frame (s : State) (n : Nat) :
    (tick^[n] s).cfg = s.cfg ∧ (tick^[n] s).port = s.port ∧ (tick^[n] s).draws = s.draws := by
  induction n with
  | zero => simp
  | succ n ih =>
    obtain ⟨h1, h2, h3⟩ := tick_frame (tick^[n] s)
    rw [Function.iterate_succ_apply', h1, h2, h3]
    exact ih

/-! ### Key scheduling -/

/-- Before the last key-schedule step the phase machine is at the same step as the loop (R34, R37). -/
theorem ticks_ksa {s : State} {kaddr klen : Word} (h1 : 1 ≤ klen.toNat) (h2 : klen.toNat ≤ 256) {n : Nat}
    (hn : n < 256) : tick^[n] (latchSched kaddr klen s) = ksaStep^[n] (latchSched kaddr klen s) := by
  induction n with
  | zero => rfl
  | succ n ih =>
    have k := ksaSteps_ksaState (s := s) (kaddr := kaddr) h1 h2 n
    have k' := ksaStep_ksaState h1 h2 k
    rw [Function.iterate_succ_apply', Function.iterate_succ_apply', ih (by omega), tick, k.phase]
    have : (ksaStep (ksaStep^[n] (latchSched kaddr klen s))).seq.i ≠ 256 := by
      rw [k'.i]
      intro e
      have := congrArg BitVec.toNat e
      simp at this
      omega
    simp only [tickKsa, this, if_false]

/-- The last key-schedule step completes the command (R33). -/
theorem ticks_ksa_last {s : State} {kaddr klen : Word} (h1 : 1 ≤ klen.toNat) (h2 : klen.toNat ≤ 256) {n : Nat}
    (hn : n + 1 = 256) : tick^[n + 1] (latchSched kaddr klen s) =
      finishSched (ksaStep^[n + 1] (latchSched kaddr klen s)) := by
  have k := ksaSteps_ksaState (s := s) (kaddr := kaddr) h1 h2 n
  have k' := ksaStep_ksaState h1 h2 k
  rw [Function.iterate_succ_apply', Function.iterate_succ_apply', ticks_ksa h1 h2 (by omega), tick, k.phase]
  have : (ksaStep (ksaStep^[n] (latchSched kaddr klen s))).seq.i = 256 := by rw [k'.i, hn]; rfl
  simp only [tickKsa, this, if_true]

/-! ### Transfers -/

theorem byteSteps_enterPhase (s : State) (p : Phase) (n : Nat) :
    byteStep^[n] (s.enterPhase p) = (byteStep^[n] s).enterPhase p := by
  induction n with
  | zero => rfl
  | succ n ih => rw [Function.iterate_succ_apply', Function.iterate_succ_apply', ih]; rfl

theorem respond_enterPhase (s : State) (p : Phase) (c : Code) : (s.enterPhase p).respond c = s.respond c := rfl

/-- In BYTE, before the last byte, the phase machine is at the same byte as the loop (R35, R37). -/
theorem ticks_byte {s : State} (hp : s.seq.phase = .byte) {n : Nat}
    (hn : s.seq.pos.toNat + n < s.seq.lenL.toNat) : tick^[n] s = byteStep^[n] s := by
  induction n with
  | zero => rfl
  | succ n ih =>
    have hl := s.seq.lenL.isLt
    have k := byteSteps_transfer (s := s) n (by omega)
    have k' := byteSteps_transfer (s := s) (n + 1) (by omega)
    rw [Function.iterate_succ_apply'] at k'
    rw [Function.iterate_succ_apply', Function.iterate_succ_apply', ih (by omega), tick, k.phase, hp]
    have : (byteStep (byteStep^[n] s)).seq.pos ≠ (byteStep (byteStep^[n] s)).seq.lenL := by
      intro e
      have := congrArg BitVec.toNat e
      rw [k'.pos, k'.lenL] at this
      omega
    simp only [tickByte, this, if_false]

/-- The last byte completes the command (R33). -/
theorem ticks_byte_last {s : State} (hp : s.seq.phase = .byte) {n : Nat} (h0 : 0 < n)
    (hn : s.seq.pos.toNat + n = s.seq.lenL.toNat) : tick^[n] s = (byteStep^[n] s).respond .ok := by
  obtain ⟨n, rfl⟩ : ∃ k, n = k + 1 := ⟨n - 1, by omega⟩
  have hl := s.seq.lenL.isLt
  have k := byteSteps_transfer (s := s) n (by omega)
  have k' := byteSteps_transfer (s := s) (n + 1) (by omega)
  rw [Function.iterate_succ_apply'] at k'
  rw [Function.iterate_succ_apply', Function.iterate_succ_apply', ticks_byte hp (by omega), tick, k.phase, hp]
  have : (byteStep (byteStep^[n] s)).seq.pos = (byteStep (byteStep^[n] s)).seq.lenL := by
    apply BitVec.eq_of_toNat_eq
    rw [k'.pos, k'.lenL]
    exact hn
  simp only [tickByte, this, if_true]

/-- In WIDE, before the last chunk, the phase machine is at the same chunk as the loop (R36, R37). -/
theorem ticks_wide {s : State} (hp : s.seq.phase = .wide) (hpos : s.seq.pos = 0)
    (ha : RangesApart (inputAddr s) (outputAddr s) s.seq.lenL.toNat) (hW : 0 < s.cfg.chunkBytes) {n : Nat}
    (hn : n < s.seq.lenL.toNat / s.cfg.chunkBytes) : tick^[n] s = chunkStep^[n] s := by
  have hl := s.seq.lenL.isLt
  have hle : ∀ k ≤ s.seq.lenL.toNat / s.cfg.chunkBytes, k * s.cfg.chunkBytes ≤ s.seq.lenL.toNat := fun k hk =>
    (Nat.mul_le_mul_right _ hk).trans (Nat.div_mul_le_self _ _)
  have tr : ∀ k ≤ s.seq.lenL.toNat / s.cfg.chunkBytes, TransferState s (k * s.cfg.chunkBytes) _ (chunkStep^[k] s) :=
    fun k hk => chunkSteps_transfer k (by have := hle k hk; simp [hpos]; omega)
      (by have := hle k hk; unfold RangesApart at *; omega)
  induction n with
  | zero => rfl
  | succ n ih =>
    have k := tr n (by omega)
    have k' := tr (n + 1) (by omega)
    rw [Function.iterate_succ_apply'] at k'
    rw [Function.iterate_succ_apply', Function.iterate_succ_apply', ih (by omega), tick, k.phase, hp]
    have : (chunkStep (chunkStep^[n] s)).seq.pos.toNat ≠ wideEnd (chunkStep (chunkStep^[n] s)) := by
      rw [wideEnd, k'.pos, k'.lenL, k'.cfg, hpos]
      intro e
      have e' : (n + 1) * s.cfg.chunkBytes = s.seq.lenL.toNat / s.cfg.chunkBytes * s.cfg.chunkBytes := by
        simpa using e
      have := Nat.eq_of_mul_eq_mul_right hW e'
      omega
    simp only [tickWide, this, if_false]

/-- The last chunk completes the command or goes on to the tail (R33). -/
theorem ticks_wide_last {s : State} (hp : s.seq.phase = .wide) (hpos : s.seq.pos = 0)
    (ha : RangesApart (inputAddr s) (outputAddr s) s.seq.lenL.toNat) (hW : 0 < s.cfg.chunkBytes) {n : Nat}
    (h0 : 0 < n) (hn : n = s.seq.lenL.toNat / s.cfg.chunkBytes) :
    tick^[n] s = if n * s.cfg.chunkBytes = s.seq.lenL.toNat then (chunkStep^[n] s).respond .ok
      else (chunkStep^[n] s).enterPhase .byte := by
  obtain ⟨n, rfl⟩ : ∃ k, n = k + 1 := ⟨n - 1, by omega⟩
  have hl := s.seq.lenL.isLt
  have hle : (n + 1) * s.cfg.chunkBytes ≤ s.seq.lenL.toNat := hn ▸ Nat.div_mul_le_self _ _
  have k := chunkSteps_transfer (s := s) n (by rw [Nat.succ_mul] at hle; simp [hpos]; omega)
    (by rw [Nat.succ_mul] at hle; unfold RangesApart at *; omega)
  have k' := chunkSteps_transfer (s := s) (n + 1) (by simp [hpos]; omega) (by unfold RangesApart at *; omega)
  rw [Function.iterate_succ_apply'] at k'
  rw [Function.iterate_succ_apply', Function.iterate_succ_apply', ticks_wide hp hpos ha hW (by omega), tick,
    k.phase, hp]
  have hp' : (chunkStep (chunkStep^[n] s)).seq.pos.toNat = (n + 1) * s.cfg.chunkBytes := by
    rw [k'.pos, hpos]; simp
  have he : (chunkStep (chunkStep^[n] s)).seq.pos.toNat = wideEnd (chunkStep (chunkStep^[n] s)) := by
    rw [wideEnd, hp', k'.lenL, k'.cfg, hn]
  have hq : (chunkStep (chunkStep^[n] s)).seq.pos = (chunkStep (chunkStep^[n] s)).seq.lenL ↔
      (n + 1) * s.cfg.chunkBytes = s.seq.lenL.toNat := by
    rw [← hp', ← k'.lenL]
    exact ⟨fun e => by rw [e], BitVec.eq_of_toNat_eq⟩
  simp only [tickWide, if_pos he, hq]

end Sys2Proof.Machine
end

