-- ==== Sys2Proof/Laws/Outcome.lean ====
section
/-! SUPPORT. Laws of outcomes: the fields of a response word, what the checks decide, every way a command can end, and what
a step can do. -/

namespace Sys2Proof.Machine

/-! ### Response words -/

@[simp] theorem statusCode_responseWord (v : Bool) (c : Code) : statusCode (responseWord v c) = c.bits := by
  cases v <;> cases c <;> rfl

@[simp] theorem statusValid_responseWord (v : Bool) (c : Code) : statusValid (responseWord v c) = v := by
  cases v <;> cases c <;> rfl

theorem responseWord_lt (v : Bool) (c : Code) : (responseWord v c).toNat < 32 := by
  cases v <;> cases c <;> decide

theorem Code.bits_le (c : Code) : c.bits.toNat ≤ 5 := by cases c <;> decide

@[simp] theorem responseWord_true_ok : responseWord true .ok = 0x10 := rfl

/-! ### Checks -/

/-- The checks of SCHED pass exactly within the contract. -/
theorem schedCheck_none_iff_accepts (s : State) (kaddr klen : Word) :
    schedCheck s.cfg kaddr klen = none ↔ s.AcceptsSched kaddr klen := schedCheck_none_iff _ _ _

theorem rangesOverlap_eq_false_iff_apart (a b n : Word) : rangesOverlap a b n = false ↔ ApartOrEqual a b n := by
  have h : a = b ↔ a.toNat = b.toNat := ⟨fun e => by rw [e], BitVec.eq_of_toNat_eq⟩
  rw [rangesOverlap_eq_false_iff, RangesApart, ApartOrEqual, h]

/-- The checks of PROC pass exactly within the contract. -/
theorem procCheck_none_iff_accepts (s : State) (src dst len : Word) :
    procCheck s.cfg s.valid src dst len = none ↔ s.AcceptsProc src dst len := by
  rw [procCheck_none_iff, rangesOverlap_eq_false_iff_apart, State.AcceptsProc]

theorem schedCheck_some {cfg : Config} {kaddr klen : Word} {c : Code} (h : schedCheck cfg kaddr klen = some c) :
    c = .invalidKeyLength ∨ c = .addrRange := by
  unfold schedCheck at h
  split at h
  · exact .inl (Option.some.inj h).symm
  · split at h
    · exact .inr (Option.some.inj h).symm
    · simp at h

theorem procCheck_some {cfg : Config} {valid : Bool} {src dst len : Word} {c : Code}
    (h : procCheck cfg valid src dst len = some c) :
    (valid = false ∧ c = .noState) ∨ (valid = true ∧ (c = .addrRange ∨ c = .overlap)) := by
  unfold procCheck at h
  cases valid
  · exact .inl ⟨rfl, by simpa using h.symm⟩
  · refine .inr ⟨rfl, ?_⟩
    simp only [Bool.not_true, Bool.false_eq_true, if_false] at h
    split at h
    · simp at h
    · split at h
      · exact .inl (Option.some.inj h).symm
      · split at h
        · exact .inr (Option.some.inj h).symm
        · simp at h

/-! ### Commands -/

/-- Every way a SCHED can end (R101). -/
theorem execSched_cases (s : State) (kaddr klen : Word) :
    (∃ c, schedCheck s.cfg kaddr klen = some c ∧ (c = .invalidKeyLength ∨ c = .addrRange) ∧
      exec (.sched kaddr klen) s = .next (s.raise c)) ∨
    (s.AcceptsSched kaddr klen ∧ ∃ t, exec (.sched kaddr klen) s = .next t ∧ SchedResult s kaddr klen t) := by
  cases h : schedCheck s.cfg kaddr klen with
  | some c => exact .inl ⟨c, rfl, schedCheck_some h, by simp only [exec, execSched, h]⟩
  | none => exact .inr ⟨(schedCheck_none_iff_accepts _ _ _).1 h, execSched_accepted h⟩

/-- Every way a PROC can end (R121). -/
theorem execProc_cases (s : State) (src dst len : Word) :
    (∃ c, procCheck s.cfg s.valid src dst len = some c ∧ exec (.proc src dst len) s = .next (s.raise c)) ∨
    (s.AcceptsProc src dst len ∧ len = 0 ∧ exec (.proc src dst len) s = .next (s.respond .ok)) ∨
    (s.AcceptsProc src dst len ∧ len ≠ 0 ∧
      ∃ t, exec (.proc src dst len) s = .next t ∧ ProcResult s src dst len t) := by
  cases h : procCheck s.cfg s.valid src dst len with
  | some c => exact .inl ⟨c, rfl, by simp only [exec, execProc, h]⟩
  | none =>
    have ha := (procCheck_none_iff_accepts _ _ _ _).1 h
    by_cases h0 : len = 0
    · exact .inr (.inl ⟨ha, h0, by simp only [exec, execProc, h, if_pos h0]⟩)
    · exact .inr (.inr ⟨ha, h0, execProc_accepted h h0⟩)

/-- A SCHED within the contract answers a next state, and what it leaves. -/
theorem exec_sched_accepted {s : State} {kaddr klen : Word} (h : s.AcceptsSched kaddr klen) :
    ∃ t, exec (.sched kaddr klen) s = .next t ∧ SchedResult s kaddr klen t :=
  execSched_accepted ((schedCheck_none_iff_accepts _ _ _).2 h)

/-- A PROC within the contract with LEN > 0 answers a next state, and what it leaves. -/
theorem exec_proc_accepted {s : State} {src dst len : Word} (h : s.AcceptsProc src dst len) (h0 : len ≠ 0) :
    ∃ t, exec (.proc src dst len) s = .next t ∧ ProcResult s src dst len t :=
  execProc_accepted ((procCheck_none_iff_accepts _ _ _ _).2 h) h0

/-- A PROC of LEN = 0 on a valid context. -/
theorem exec_proc_zero {s : State} {src dst : Word} (h : s.valid = true) :
    exec (.proc src dst 0) s = .next (s.respond .ok) := execProc_zero h

/-- Every command answers a next state (R10, R160). -/
theorem exec_next (i : Instr) (s : State) : ∃ t, exec i s = .next t := by
  cases i with
  | sched a n => rcases execSched_cases s a n with ⟨c, -, -, h⟩ | ⟨-, t, h, -⟩ <;> exact ⟨_, h⟩
  | proc a b n => rcases execProc_cases s a b n with ⟨c, -, h⟩ | ⟨-, -, h⟩ | ⟨-, -, t, h, -⟩ <;> exact ⟨_, h⟩

/-- What a descriptor comes to: a fault of the decoder, or its command (R164). -/
theorem runDescriptor_cases (D : Descriptor) (s : State) :
    (∃ why, decode D = .illegal why ∧ runDescriptor D s = .next (s.raise .illegalCommand)) ∨
    (∃ i, decode D = .legal i ∧ runDescriptor D s = exec i s) := by
  unfold runDescriptor
  cases h : decode D with
  | legal i => exact .inr ⟨i, rfl, rfl⟩
  | illegal why => exact .inl ⟨why, rfl, rfl⟩

/-! ### Steps -/

/-- Everything a step that answers a next state can have done (R10, R33, R179). -/
theorem step_cases {s t : State} (h : step s = .next t) :
    (s.seq.phase ≠ .idle ∧ t = tick s) ∨
    (s.seq.phase = .idle ∧ ((s.port = [] ∧ t = s) ∨
      ∃ rest, (∃ D, s.port = .command D :: rest ∧ runDescriptor D { s with port := rest } = .next t) ∨
        (∃ a b, s.port = .write a b :: rest ∧ a.toNat < s.cfg.memBytes ∧
          t = { s with port := rest, mem := s.mem.write a.toNat b }) ∨
        (s.port = .reset :: rest ∧ t = State.hostReset { s with port := rest }) ∨
        (∃ D n, s.port = .commandReset D n :: rest ∧ t = abandon D n { s with port := rest }))) := by
  unfold step at h
  cases hp : s.seq.phase <;> rw [hp] at h
  · refine .inr ⟨rfl, ?_⟩
    cases hq : s.port with
    | nil => rw [hq] at h; exact .inl ⟨rfl, (Host.Outcome.next.inj h).symm⟩
    | cons e rest =>
      rw [hq] at h
      refine .inr ⟨rest, ?_⟩
      cases e with
      | command D => exact .inl ⟨D, rfl, h⟩
      | write a b =>
        simp only [handle, hostWrite] at h
        split at h
        · next ha => exact .inr (.inl ⟨a, b, rfl, ha, (Host.Outcome.next.inj h).symm⟩)
        · simp at h
      | reset => exact .inr (.inr (.inl ⟨rfl, (Host.Outcome.next.inj h).symm⟩))
      | commandReset D n => exact .inr (.inr (.inr ⟨D, n, rfl, (Host.Outcome.next.inj h).symm⟩))
  all_goals exact .inl ⟨by simp, (Host.Outcome.next.inj h).symm⟩

/-- An idle engine takes the next event of its port. -/
theorem step_idle_cons {s : State} {e : HostEvent} {rest : List HostEvent} (hp : s.seq.phase = .idle)
    (hq : s.port = e :: rest) : step s = handle e { s with port := rest } := by
  simp only [step, hp, hq]

/-- An engine that is not idle makes one micro-step. -/
theorem step_busy {s : State} (hp : s.seq.phase ≠ .idle) : step s = .next (tick s) := by
  unfold step
  cases h : s.seq.phase <;> simp_all

end Sys2Proof.Machine
end

