-- ==== Sys2Proof/Laws/Invariant.lean ====
section
/-! SUPPORT. The invariant, operation by operation: a response, a reset, the acceptance of a command and each micro-step of
the phase machine keep it. -/

namespace Sys2Proof.Machine

theorem Config.legal_iff (c : Config) :
    c.legal = true ↔ (1 ≤ c.memBytes ∧ c.memBytes ≤ 2 ^ 32) ∧ (c.chunkBytes = 4 ∨ c.chunkBytes = 8) := by
  simp [Config.legal, Config.memBytesLegal, Config.chunkBytesLegal]

theorem Sequencer.clip_width (W : Nat) (q : Sequencer) :
    (q.clip W).kw < 2 ^ (8 * W) ∧ (q.clip W).iw < 2 ^ (8 * W) :=
  ⟨Nat.mod_lt _ (by positivity), Nat.mod_lt _ (by positivity)⟩

/-- The ports and the draw number play no part in the invariant. -/
theorem State.Inv.withPort {s : State} (h : s.Inv) (port : List HostEvent) : State.Inv { s with port := port } :=
  ⟨h.cfgLegal, h.memWf, h.memWithin, h.tablePermutation, h.statusForm, h.wordWidth, h.phaseInv⟩

/-- The responses delivered play no part in the invariant. -/
theorem State.Inv.withResponses {s : State} (h : s.Inv) (r : List Word) : State.Inv { s with responses := r } :=
  ⟨h.cfgLegal, h.memWf, h.memWithin, h.tablePermutation, h.statusForm, h.wordWidth, h.phaseInv⟩

/-- A response keeps the invariant of an idle engine or of one whose command is complete (R161). -/
theorem State.Inv.respond {s : State} (hc : s.cfg.legal = true) (hm : s.mem.wf) (hw : s.mem.within s.cfg.memBytes)
    (hp : s.valid = true → s.cipher.S.IsPermutation)
    (hq : s.seq.kw < 2 ^ (8 * s.cfg.chunkBytes) ∧ s.seq.iw < 2 ^ (8 * s.cfg.chunkBytes)) (c : Code) :
    (s.respond c).Inv := by
  refine ⟨hc, hm, hw, ?_, ⟨c, rfl⟩, hq, trivial⟩
  rintro (h | h)
  · exact hp h
  · simp at h

theorem State.Inv.raise {s : State} (h : s.Inv) (c : Code) : (s.raise c).Inv :=
  State.Inv.respond h.cfgLegal h.memWf h.memWithin (fun hv => h.tablePermutation (.inl hv)) h.wordWidth c

/-- Reset keeps the invariant, whatever it leaves in the table (R190). -/
theorem State.Inv.hostReset {s : State} (h : s.Inv) : s.hostReset.Inv := by
  refine ⟨h.cfgLegal, h.memWf, h.memWithin, ?_, ⟨.ok, show (0 : Word) = responseWord false .ok by decide⟩, Sequencer.clip_width _ _, trivial⟩
  rintro (h | h) <;> simp at h

/-- Acceptance of a SCHED (R33, R102). -/
theorem State.Inv.latchSched {s : State} (h : s.Inv) {kaddr klen : Word} (ha : s.AcceptsSched kaddr klen) :
    (latchSched kaddr klen s).Inv := by
  obtain ⟨h1, h2, h3⟩ := ha
  refine ⟨h.cfgLegal, h.memWf, h.memWithin, fun _ => ?_, h.statusForm, h.wordWidth, ?_⟩
  · simpa using Table.identity_isPermutation
  · have hk : (klen.setWidth 9).toNat = klen.toNat := by simp; omega
    show (0 : BitVec 9).toNat < 256 ∧ (0 : Byte).toNat < (klen.setWidth 9).toNat ∧ (klen.setWidth 9).toNat ≤ 256 ∧
      kaddr.toNat + (klen.setWidth 9).toNat ≤ s.cfg.memBytes
    rw [hk]
    simp
    omega

/-- Acceptance of a PROC with LEN > 0 (R33, R141). -/
theorem State.Inv.latchProc {s : State} (h : s.Inv) {src dst len : Word} (ha : s.AcceptsProc src dst len)
    (h0 : len ≠ 0) : (latchProc src dst len s).Inv := by
  obtain ⟨hv, h1⟩ := ha
  obtain ⟨h1, h2, h3⟩ := h1.resolve_left h0
  have hr : Sequencer.RangesLegal (Machine.latchProc src dst len s).seq s.cfg :=
    ⟨(rangeValid_iff _ _ _).2 h1, (rangeValid_iff _ _ _).2 h2, (rangesOverlap_eq_false_iff_apart _ _ _).2 h3⟩
  have hlen : 0 < len.toNat := by
    rcases Nat.eq_zero_or_pos len.toNat with e | e
    · exact absurd (BitVec.eq_of_toNat_eq e) h0
    · exact e
  refine ⟨h.cfgLegal, h.memWf, h.memWithin, fun _ => h.tablePermutation (.inl hv), h.statusForm, h.wordWidth, ?_⟩
  unfold State.PhaseInv
  by_cases hw : wideSelected s.cfg src dst len = true
  · have hle : s.cfg.chunkBytes ≤ len.toNat := by simp [wideSelected] at hw; omega
    simp [startPhase, hw]
    exact ⟨hv, by simpa [startPhase, hw] using hr, hle⟩
  · simp [startPhase, hw]
    exact ⟨hv, by simpa [startPhase, hw] using hr, hlen⟩

/-- One micro-step of key scheduling (R34). -/
theorem tickKsa_inv {s : State} (h : s.Inv) (hp : s.seq.phase = .ksa) : (tickKsa s).Inv := by
  have hph := h.phaseInv
  simp only [State.PhaseInv, hp] at hph
  obtain ⟨hi, hid, hk, hr⟩ := hph
  have perm : (ksaStep s).cipher.S.IsPermutation :=
    Table.exchange_isPermutation (h.tablePermutation (.inr hp)) _ _
  unfold tickKsa
  simp only
  split
  · exact State.Inv.respond (s := { ksaStep s with cipher := { (ksaStep s).cipher with ca := 0, cb := 0 }, valid := true })
      h.cfgLegal h.memWf h.memWithin (fun _ => perm) h.wordWidth .ok
  · next hne =>
    refine ⟨h.cfgLegal, h.memWf, h.memWithin, fun _ => perm, h.statusForm, h.wordWidth, ?_⟩
    have hi1 : (s.seq.i + 1).toNat = s.seq.i.toNat + 1 := by simp; omega
    have hne' : s.seq.i.toNat + 1 ≠ 256 := by
      intro e
      apply hne
      apply BitVec.eq_of_toNat_eq
      simp [e]
    have hid' := nextKeyIndex_toNat (n := s.seq.id1.toNat) (id1 := s.seq.id1) (klen := s.seq.klenL) rfl (by omega) hk
      (Nat.mod_eq_of_lt hid).symm
    have hlt := Nat.mod_lt (s.seq.id1.toNat + 1) (show 0 < s.seq.klenL.toNat by omega)
    simp only [State.PhaseInv, ksaStep_seq, hp, ksaStep_cfg, hi1, hid']
    omega

/-- One chunk of the wide path (R36). -/
theorem tickWide_inv {s : State} (h : s.Inv) (hp : s.seq.phase = .wide) : (tickWide s).Inv := by
  have hph := h.phaseInv
  simp only [State.PhaseInv, hp] at hph
  obtain ⟨hv, hrl, hws, hmod, hle⟩ := hph
  obtain ⟨hr1, hr2, hr3⟩ := hrl
  have ⟨hmb, hW⟩ := (Config.legal_iff _).1 h.cfgLegal
  have hr1' := (rangeValid_iff _ _ _).1 hr1
  have hr2' := (rangeValid_iff _ _ _).1 hr2
  have hap := (rangesOverlap_eq_false_iff _ _ _).1 hr3
  have hlen := s.seq.lenL.isLt
  have ha : RangesApart (inputAddr s) (outputAddr s) s.cfg.chunkBytes := by
    unfold RangesApart inputAddr outputAddr at *; omega
  have k := chunkStep_transfer (s := s) (by
    rcases Nat.lt_or_ge (s.seq.pos.toNat + s.cfg.chunkBytes) (2 ^ 32) with g | g
    · exact g
    · omega) ha
  have hmem : (chunkStep s).mem.wf := by rw [k.mem]; exact xorBytes_wf h.memWf _ _ _ _
  have hwith : (chunkStep s).mem.within (chunkStep s).cfg.memBytes := by
    rw [k.mem, k.cfg]
    exact xorBytes_within h.memWithin _ _ _ _ (by unfold outputAddr; omega)
  have perm : (chunkStep s).cipher.S.IsPermutation := by
    rw [k.cipher]; exact Cipher.advance_isPermutation (h.tablePermutation (.inl hv)) _
  have hq : (chunkStep s).seq.kw < 2 ^ (8 * (chunkStep s).cfg.chunkBytes) ∧
      (chunkStep s).seq.iw < 2 ^ (8 * (chunkStep s).cfg.chunkBytes) := by
    rw [k.cfg]; exact chunkStep_wordWidth s
  have hc : (chunkStep s).cfg.legal = true := by rw [k.cfg]; exact h.cfgLegal
  have hst : ∃ c, (chunkStep s).status = responseWord (chunkStep s).valid c := by
    rw [k.status, k.valid]; exact h.statusForm
  have hrl' : (chunkStep s).seq.RangesLegal (chunkStep s).cfg := by
    rw [k.cfg, Sequencer.RangesLegal, k.srcL, k.dstL, k.lenL]; exact ⟨hr1, hr2, hr3⟩
  have hdm := Nat.div_add_mod s.seq.lenL.toNat s.cfg.chunkBytes
  have hmlt := Nat.mod_lt s.seq.lenL.toNat (show 0 < s.cfg.chunkBytes by omega)
  unfold tickWide
  simp only
  split
  · next he =>
    split
    · exact State.Inv.respond hc hmem hwith (fun _ => perm) hq .ok
    · next hne =>
      refine ⟨hc, hmem, hwith, fun _ => perm, hst, hq, ?_⟩
      refine ⟨k.valid.trans hv, hrl', ?_⟩
      have hne' : (chunkStep s).seq.pos.toNat ≠ (chunkStep s).seq.lenL.toNat :=
        fun e => hne (BitVec.eq_of_toNat_eq e)
      have := Nat.div_mul_le_self s.seq.lenL.toNat s.cfg.chunkBytes
      simp only [wideEnd, k.lenL, k.cfg] at he
      simp only [State.enterPhase, k.lenL] at *
      omega
  · next hne =>
    refine ⟨hc, hmem, hwith, fun _ => perm, hst, hq, ?_⟩
    simp only [wideEnd, k.pos, k.lenL, k.cfg] at hne
    simp only [State.PhaseInv, Sequencer.RangesLegal, k.phase, hp, k.srcL, k.dstL, k.lenL, k.cfg, k.valid, k.pos]
    refine ⟨hv, ⟨hr1, hr2, hr3⟩, hws, ?_, ?_⟩
    · rw [Nat.add_mod_right]; exact hmod
    · obtain ⟨q, hq'⟩ := Nat.dvd_of_mod_eq_zero hmod
      have hq2 : q + 1 ≤ s.seq.lenL.toNat / s.cfg.chunkBytes := by
        rw [Nat.le_div_iff_mul_le (by omega), Nat.add_mul, Nat.mul_comm q]
        omega
      have hq3 : q + 1 ≠ s.seq.lenL.toNat / s.cfg.chunkBytes := by
        intro e
        apply hne
        rw [← e, hq', Nat.add_mul, Nat.mul_comm q]
        omega
      have hq4 : (q + 2) * s.cfg.chunkBytes ≤ s.seq.lenL.toNat :=
        (Nat.mul_le_mul_right _ (show q + 2 ≤ s.seq.lenL.toNat / s.cfg.chunkBytes by omega)).trans
          (Nat.div_mul_le_self _ _)
      rw [Nat.add_mul, Nat.mul_comm q] at hq4
      omega

/-- One byte of the byte path (R35). -/
theorem tickByte_inv {s : State} (h : s.Inv) (hp : s.seq.phase = .byte) : (tickByte s).Inv := by
  have hph := h.phaseInv
  simp only [State.PhaseInv, hp] at hph
  obtain ⟨hv, hrl, hlt⟩ := hph
  have hr2' := (rangeValid_iff _ _ _).1 hrl.2.1
  have hlen := s.seq.lenL.isLt
  have k := byteStep_transfer (s := s) (by
    rcases Nat.lt_or_ge (s.seq.pos.toNat + 1) (2 ^ 32) with g | g
    · exact g
    · omega)
  have hmem : (byteStep s).mem.wf := Memory.write_wf h.memWf _ _
  have hwith : (byteStep s).mem.within (byteStep s).cfg.memBytes :=
    Memory.write_within h.memWithin (show s.seq.dstL.toNat + s.seq.pos.toNat < s.cfg.memBytes by omega) _
  have perm : (byteStep s).cipher.S.IsPermutation :=
    Table.exchange_isPermutation (h.tablePermutation (.inl hv)) _ _
  unfold tickByte
  simp only
  split
  · exact State.Inv.respond (s := byteStep s) h.cfgLegal hmem hwith (fun _ => perm) h.wordWidth .ok
  · next hne =>
    refine ⟨h.cfgLegal, hmem, hwith, fun _ => perm, h.statusForm, h.wordWidth, ?_⟩
    have hne' : (byteStep s).seq.pos.toNat ≠ s.seq.lenL.toNat := fun e => hne (BitVec.eq_of_toNat_eq e)
    have hpos := k.pos
    simp only [State.PhaseInv, k.phase, hp]
    refine ⟨hv, hrl, ?_⟩
    rw [k.lenL]
    omega

/-- One micro-step keeps the invariant (R33). -/
theorem tick_inv {s : State} (h : s.Inv) : (tick s).Inv := by
  unfold tick
  cases hp : s.seq.phase
  · exact h
  · exact tickKsa_inv h hp
  · exact tickWide_inv h hp
  · exact tickByte_inv h hp

theorem ticks_inv {s : State} (h : s.Inv) (n : Nat) : (tick^[n] s).Inv := by
  induction n with
  | zero => exact h
  | succ n ih => rw [Function.iterate_succ_apply']; exact tick_inv ih

/-- Acceptance of a command keeps the invariant (R33). -/
theorem acceptInstr_inv {s : State} (h : s.Inv) (i : Instr) : (acceptInstr i s).Inv := by
  cases i with
  | sched a n =>
    cases hc : schedCheck s.cfg a n with
    | some c => simpa only [acceptInstr, hc] using h.raise c
    | none =>
      simpa only [acceptInstr, hc] using h.latchSched ((schedCheck_none_iff_accepts _ _ _).1 hc)
  | proc a b n =>
    cases hc : procCheck s.cfg s.valid a b n with
    | some c => simpa only [acceptInstr, hc] using h.raise c
    | none =>
      by_cases h0 : n = 0
      · simpa only [acceptInstr, hc, if_pos h0, State.raise] using h.raise .ok
      · rw [acceptInstr_proc hc h0]
        exact h.latchProc ((procCheck_none_iff_accepts _ _ _ _).1 hc) h0

/-- Acceptance of a descriptor keeps the invariant (R33). -/
theorem accept_inv {s : State} (h : s.Inv) (D : Descriptor) : (accept D s).Inv := by
  unfold accept
  cases decode D with
  | legal i => exact acceptInstr_inv h i
  | illegal _ => exact h.raise .illegalCommand

end Sys2Proof.Machine
end

