-- ==== Sys2Proof/Laws/PerInstr.lean ====
section
/-! SUPPORT. Statements made for every instruction, one lemma per constructor of Instr. -/

namespace Sys2Proof.Laws.FitsRow

/-- The row of the opcode table an instruction belongs to (R92). -/
def row : Instr → OpcodeRow
  | .sched _ _ => schedRow
  | .proc _ _ _ => procRow

theorem procRow_ne_schedRow : procRow ≠ schedRow := by decide

/-- The encoding of an instruction matches its own row of the opcode table and no other (R84, R85, R92). -/
def Statement (i : Instr) : Prop := ∀ r ∈ [schedRow, procRow], r.fits (encode i) = true ↔ r = row i

theorem sched (kaddr klen : Word) : Statement (.sched kaddr klen) := by
  have h : descriptorWord (encode (.sched kaddr klen)) 0 = 1 := descriptorWord_zero ..
  have h2 : descriptorWord (encode (.sched kaddr klen)) 2 = 0 := descriptorWord_two ..
  intro r hr
  rcases List.mem_pair.1 hr with rfl | rfl
  · simp [schedRow_fits_iff, h, h2, row]
  · rw [procRow_fits_iff, h]
    exact iff_of_false (by decide) procRow_ne_schedRow

theorem proc (src dst len : Word) : Statement (.proc src dst len) := by
  have h : descriptorWord (encode (.proc src dst len)) 0 = 2 := descriptorWord_zero ..
  intro r hr
  rcases List.mem_pair.1 hr with rfl | rfl
  · rw [schedRow_fits_iff, h]
    exact iff_of_false (fun g => absurd g.1 (by decide)) procRow_ne_schedRow.symm
  · simp [procRow_fits_iff, h, row]

end Sys2Proof.Laws.FitsRow
end

