-- ==== Sys2Proof/Machine/Asm.lean ====
section
/-! DEFINITION. The listing notation of the spec: the text of one line (R89, R90), the directives of test listings (R91),
and the four words a listing prints for a descriptor (R89). No part of the engine reads text. -/

namespace Sys2Proof.Machine

/-! ### Characters and numbers -/

/-- The value of one hexadecimal digit, of either case (R89). -/
def hexDigit (c : Char) : Option Nat :=
  let n := c.toNat
  if 48 ≤ n ∧ n ≤ 57 then some (n - 48)
  else if 65 ≤ n ∧ n ≤ 70 then some (n - 55)
  else if 97 ≤ n ∧ n ≤ 102 then some (n - 87)
  else none

/-- The digits of a number in the given base, most significant first, read on from `acc`. -/
def readDigits (base acc : Nat) : List Char → Option Nat
  | [] => some acc
  | c :: cs =>
    match hexDigit c with
    | some d => if d < base then readDigits base (acc * base + d) cs else none
    | none => none

/-- A number, decimal or hexadecimal with `0x` (R89); the empty text is none. -/
def readNumber : List Char → Option Nat
  | [] => none
  | ['0', 'x'] => none
  | '0' :: 'x' :: cs => readDigits 16 0 cs
  | cs => readDigits 10 0 cs

/-- A response word of a directive: hexadecimal digits, with or without `0x` (R91; notes/assumptions/16.md). -/
def readHex : List Char → Option Nat
  | [] => none
  | ['0', 'x'] => none
  | '0' :: 'x' :: cs => readDigits 16 0 cs
  | cs => readDigits 16 0 cs

/-- A byte of a directive: two hexadecimal digits without `0x` (R91). -/
def readByte : List Char → Option Byte
  | [a, b] => (readDigits 16 0 [a, b]).map (BitVec.ofNat 8)
  | _ => none

/-- The text cut at every character that `sep` accepts. -/
def cutAt (sep : Char → Bool) : List Char → List (List Char)
  | [] => [[]]
  | c :: cs =>
    match cutAt sep cs with
    | [] => [[]]
    | p :: ps => if sep c then [] :: p :: ps else (c :: p) :: ps

/-- A space or a tabulator. -/
def isBlank (c : Char) : Bool := c == ' ' || c == '\t'

/-- The words of a text: what stands between blanks. -/
def wordsOf (cs : List Char) : List (List Char) := (cutAt isBlank cs).filter fun w => !w.isEmpty

/-- The text without its comment, "from `;` to the end of the line" (R89). -/
def withoutComment (cs : List Char) : List Char := cs.takeWhile fun c => c != ';'

/-- The only word of a text, read by `f`. -/
def readSingle (f : List Char → Option Nat) (cs : List Char) : Option Nat :=
  match wordsOf cs with
  | [w] => f w
  | _ => none

/-- An operand: exactly one word, a number (R89). -/
def readOperand (cs : List Char) : Option Nat := readSingle readNumber cs

/-! ### Lines -/

/-- One line of a listing: a command or a directive (R89, R91). -/
inductive ListingLine
  /-- No command: an empty line or a comment. -/
  | blank
  /-- A command or a pseudo-instruction. -/
  | command (l : AsmLine)
  /-- `.mem`: bytes of memory before the program runs. -/
  | mem (a : Nat) (bytes : List Byte)
  /-- `.expect`: bytes of memory after it. -/
  | expect (a : Nat) (bytes : List Byte)
  /-- `.resp`: the response word of the command before it. -/
  | resp (w : Nat)
deriving DecidableEq, Repr

/-- The mnemonics, in lower case, with the number of their operands (R89, R90). -/
def lineOf (mnemonic : List Char) (operands : List Nat) : Option AsmLine :=
  match operands with
  | [a, n] =>
    if mnemonic = "sched".toList then some (.sched a n)
    else if mnemonic = "proci".toList then some (.proci a n)
    else none
  | [s, d, n] =>
    if mnemonic = "proc".toList then some (.proc s d n)
    else if mnemonic = "enc".toList then some (.enc s d n)
    else if mnemonic = "dec".toList then some (.dec s d n)
    else none
  | _ => none

/-- `<addr>: <byte> <byte> ...` (R91). -/
def readDump (cs : List Char) : Option (Nat × List Byte) :=
  match cutAt (fun c => c == ':') cs with
  | [a, bs] => do
    let a ← readOperand a
    let bs ← (wordsOf bs).mapM readByte
    pure (a, bs)
  | _ => none

/-- The line whose first word and rest are given; a command with an operand that does not fit in 32 bits is rejected
(R89). -/
def readAfter (word rest : List Char) : Option ListingLine :=
  if word = ".mem".toList then (readDump rest).map fun p => .mem p.1 p.2
  else if word = ".expect".toList then (readDump rest).map fun p => .expect p.1 p.2
  else if word = ".resp".toList then (readSingle readHex rest).map .resp
  else do
    let ns ← (cutAt (fun c => c == ',') rest).mapM readOperand
    let l ← lineOf word ns
    if l.wellFormed then pure (.command l) else none

/-- The text of one line, or none where the notation does not admit it (R89, R91). -/
def readLine (text : List Char) : Option ListingLine :=
  let body := (withoutComment text).dropWhile isBlank
  if body.isEmpty then some .blank
  else readAfter (body.takeWhile fun c => !isBlank c) (body.dropWhile fun c => !isBlank c)

/-! ### What a line says -/

/-- The descriptor a line emits: a directive emits none (R89, R91). -/
def ListingLine.descriptor : ListingLine → Option Descriptor
  | .command l => assemble l
  | _ => none

/-- The bytes of a directive lie in `0 .. MEM_BYTES − 1` (R50). -/
def bytesExist (cfg : Config) (a : Nat) (bytes : List Byte) : Bool := decide (a + bytes.length ≤ cfg.memBytes)

/-- What a line puts into memory before the program runs (R91). The rule gives no outcome for a `.mem` byte at an address
at or above MEM_BYTES; DESIGN CHOICE (notes/assumptions/18.md): such a line places nothing and is refused. -/
def ListingLine.place (cfg : Config) (l : ListingLine) (m : Memory) : Option Memory :=
  match l with
  | .mem a bytes =>
    if bytesExist cfg a bytes then
      some ((List.range bytes.length).foldl (fun m' k => m'.write (a + k) (bytes.getD k 0)) m)
    else none
  | _ => some m

/-- What a line states of the machine at its place in the listing (R91). The rule does not say what a `.resp` number of
more than 32 bits means, nor an `.expect` byte at or above MEM_BYTES; DESIGN CHOICE (notes/assumptions/18.md): no machine
agrees with either, since the numbers are compared as numbers and the byte does not exist. -/
def ListingLine.agrees (l : ListingLine) (s : State) : Bool :=
  match l with
  | .expect a bytes =>
    bytesExist s.cfg a bytes && (List.range bytes.length).all fun k => s.mem.read (a + k) == bytes.getD k 0
  | .resp w => s.responses.head?.map BitVec.toNat == some w
  | _ => true

/-- The digit of a number below 16, in upper case. -/
def digitChar (n : Nat) : Char := if n < 10 then Char.ofNat (48 + n) else Char.ofNat (55 + n)

/-- A word as 8 hexadecimal digits (R89). -/
def wordText (w : Word) : List Char :=
  (List.range 8).map fun k => digitChar (w.toNat / 16 ^ (7 - k) % 16)

/-- A descriptor as its four words in the order DW0 DW1 DW2 DW3, each as 8 hexadecimal digits (R89). -/
def descriptorText (D : Descriptor) : List Char :=
  wordText (descriptorWord D 0) ++ ' ' :: wordText (descriptorWord D 1) ++ ' ' :: wordText (descriptorWord D 2) ++
    ' ' :: wordText (descriptorWord D 3)

end Sys2Proof.Machine
end

