-- ==== Sys2Proof/Tests/Slice0.lean ====
section
/-! SUPPORT. Tests of the model against the vectors of spec/95_test_vectors.md (each test names its vector), the smoke tests
of WellFormed, and for every statement with hypotheses a witness: a concrete state and operands that meet them. -/

namespace Sys2Proof.Tests

open Sys2Proof.Machine

/-! ### The bench -/

/-- The table of V3, after `sched` on "Key". -/
def rowsV3 : List Nat :=
  [0x4B, 0x33, 0x84, 0x9D, 0xC0, 0xC8, 0x1D, 0xA8, 0x4A, 0xF3, 0x83, 0xE4, 0x12, 0x70, 0x82, 0x90] ++
  [0x5B, 0x8F, 0xEC, 0x22, 0x29, 0xB9, 0xCC, 0x5C, 0xBF, 0xD8, 0xBA, 0x0E, 0x6E, 0x4D, 0x08, 0x23] ++
  [0xBC, 0x1B, 0x67, 0x89, 0xB6, 0x40, 0x3B, 0x69, 0xD7, 0xF7, 0xEE, 0x7E, 0x8A, 0x1A, 0xE3, 0x37] ++
  [0x15, 0x54, 0x68, 0x4E, 0x87, 0x71, 0xFF, 0xAC, 0x38, 0x59, 0xBB, 0x1C, 0x3E, 0x20, 0x2D, 0x41] ++
  [0x24, 0xFB, 0x98, 0x74, 0xBD, 0x07, 0x6C, 0x2E, 0xCA, 0xA2, 0x9F, 0x53, 0x1F, 0x9A, 0x0B, 0xE7] ++
  [0x6A, 0x0D, 0x00, 0xD9, 0x14, 0xE5, 0x66, 0x76, 0x52, 0x55, 0xB0, 0x61, 0xD6, 0x97, 0x06, 0x04] ++
  [0x8E, 0xF5, 0x86, 0x3C, 0xE1, 0xA5, 0x03, 0x27, 0x56, 0x65, 0x5A, 0x7F, 0xC5, 0x48, 0x75, 0x92] ++
  [0x2F, 0xC3, 0x2A, 0x80, 0x64, 0xFD, 0xAE, 0xD1, 0x19, 0xEF, 0x72, 0xDB, 0xF4, 0xEA, 0xA3, 0xBE] ++
  [0xB7, 0xEB, 0x36, 0x62, 0x99, 0x79, 0x7B, 0x26, 0x28, 0xB4, 0xB3, 0x8B, 0xCB, 0x46, 0x05, 0x18] ++
  [0x2B, 0xC7, 0xE0, 0xD5, 0xD2, 0xDC, 0xAD, 0xF1, 0x17, 0x58, 0xC4, 0x4F, 0xF2, 0x3A, 0x09, 0x49] ++
  [0x8D, 0xA0, 0xC1, 0xB5, 0x13, 0xE9, 0x3F, 0x50, 0x1E, 0x51, 0x6F, 0xE2, 0xAF, 0x96, 0xCF, 0xDE] ++
  [0x11, 0x77, 0xE6, 0x60, 0x47, 0x57, 0x85, 0xC6, 0x5F, 0xA9, 0x9B, 0xD4, 0x42, 0x31, 0xCD, 0x02] ++
  [0x4C, 0x73, 0x25, 0xC2, 0x39, 0x16, 0xDF, 0xB2, 0x10, 0x0C, 0x5D, 0xED, 0xF0, 0x21, 0xCE, 0x45] ++
  [0x35, 0x9E, 0x94, 0x0F, 0x7A, 0x88, 0xA1, 0xF6, 0xC9, 0x2C, 0xAB, 0x43, 0xB8, 0x6D, 0xFC, 0x32] ++
  [0xAA, 0x91, 0x95, 0x8C, 0x5E, 0xDA, 0x9C, 0xD0, 0x01, 0x81, 0x44, 0x30, 0xFE, 0xA4, 0xFA, 0xA7] ++
  [0xF8, 0x7D, 0xB1, 0xA6, 0xE8, 0x78, 0x6B, 0x63, 0xF9, 0xDD, 0x34, 0x7C, 0x0A, 0xD3, 0x3D, 0x93]

/-- The table of V6, after the nine keystream steps of V5. -/
def rowsV6 : List Nat :=
  [0x4B, 0x4E, 0xC6, 0x14, 0x29, 0xB8, 0xDD, 0xA0, 0x30, 0xFC, 0x83, 0xE4, 0x12, 0x70, 0x82, 0x90] ++
  [0x5B, 0x8F, 0xEC, 0x22, 0xC0, 0xB9, 0xCC, 0x5C, 0xBF, 0xD8, 0xBA, 0x0E, 0x6E, 0x4D, 0x08, 0x23] ++
  [0xBC, 0x1B, 0x67, 0x89, 0xB6, 0x40, 0x3B, 0x69, 0xD7, 0xF7, 0xEE, 0x7E, 0x8A, 0x1A, 0xE3, 0x37] ++
  [0x15, 0x54, 0x68, 0x33, 0x87, 0x71, 0xFF, 0xAC, 0x38, 0x59, 0xBB, 0x1C, 0x3E, 0x20, 0x2D, 0x41] ++
  [0x24, 0xFB, 0x98, 0x74, 0xBD, 0x07, 0x6C, 0x2E, 0xCA, 0xA2, 0x9F, 0x53, 0x1F, 0x9A, 0x0B, 0xE7] ++
  [0x6A, 0x0D, 0x00, 0xD9, 0x9D, 0xE5, 0x66, 0x76, 0x52, 0x55, 0xB0, 0x61, 0xD6, 0x97, 0x06, 0x04] ++
  [0x8E, 0xF5, 0x86, 0x3C, 0xE1, 0xA5, 0x03, 0x27, 0x56, 0x65, 0x5A, 0x7F, 0xC5, 0x48, 0x75, 0x92] ++
  [0x2F, 0xC3, 0x2A, 0x80, 0x64, 0xFD, 0xAE, 0xD1, 0x19, 0xEF, 0x72, 0xDB, 0xF4, 0xEA, 0xA3, 0xBE] ++
  [0xB7, 0xEB, 0x36, 0x62, 0x99, 0x79, 0x7B, 0x26, 0x28, 0xB4, 0xB3, 0x8B, 0xCB, 0x46, 0x05, 0x18] ++
  [0x2B, 0xC7, 0xE0, 0xD5, 0xD2, 0xDC, 0xAD, 0xF1, 0x17, 0x58, 0xC4, 0x4F, 0xF2, 0x3A, 0x09, 0x49] ++
  [0x8D, 0xA8, 0xC1, 0xB5, 0x13, 0xE9, 0x3F, 0x50, 0x1E, 0x51, 0x6F, 0xE2, 0xAF, 0x96, 0xCF, 0xDE] ++
  [0x11, 0x77, 0xE6, 0x60, 0x47, 0x57, 0x85, 0x84, 0x5F, 0xA9, 0x9B, 0xD4, 0x42, 0x31, 0xCD, 0x02] ++
  [0x4C, 0x73, 0x25, 0xC2, 0x39, 0x16, 0xDF, 0xB2, 0x10, 0x0C, 0x5D, 0xED, 0xF0, 0x21, 0xCE, 0x45] ++
  [0x35, 0x9E, 0x94, 0x0F, 0x7A, 0x88, 0xA1, 0xF6, 0xC9, 0x2C, 0xAB, 0x43, 0xC8, 0x6D, 0xF3, 0x32] ++
  [0xAA, 0x91, 0x95, 0x8C, 0x5E, 0xDA, 0x9C, 0xD0, 0x01, 0x81, 0x44, 0x4A, 0xFE, 0xA4, 0xFA, 0xA7] ++
  [0xF8, 0x7D, 0xB1, 0xA6, 0xE8, 0x78, 0x6B, 0x63, 0xF9, 0x1D, 0x34, 0x7C, 0x0A, 0xD3, 0x3D, 0x93]

/-- A table from its 256 entries. -/
def tableOf (rows : List Nat) : Table := Vector.ofFn fun i => BitVec.ofNat 8 (rows.getD i.val 0)

/-- Bytes in memory from an address on. -/
def bytesAt (a : Nat) (bytes : List Nat) : Memory := ((List.range bytes.length).zip bytes).map fun p =>
  (a + p.1, BitVec.ofNat 8 p.2)

/-- The key "Key" at 0x100 and the text "Plaintext" at 0x200 (V1, P1). -/
def keyAndText : Memory :=
  bytesAt 0x100 [0x4B, 0x65, 0x79] ++ bytesAt 0x200 [0x50, 0x6C, 0x61, 0x69, 0x6E, 0x74, 0x65, 0x78, 0x74]

/-- Straps with the memory size of the vectors. -/
def straps (W : Nat) (order : ByteOrder) (wide : Bool) : Config :=
  { memBytes := 0x1000, chunkBytes := W, byteOrder := order, wideEn := wide }

/-- The eight settings the vectors are evaluated under. -/
def eightStraps : List Config :=
  [straps 4 .le true, straps 4 .le false, straps 4 .be true, straps 4 .be false,
   straps 8 .le true, straps 8 .le false, straps 8 .be true, straps 8 .be false]

/-- Registers of a sequencer at rest. -/
def restSeq : Sequencer :=
  { phase := .idle, i := 0, id1 := 0, id2 := 0, kaddrL := 0, klenL := 1, srcL := 0, dstL := 0, lenL := 0, pos := 0,
    t := 0, u := 0, ks := 0, kw := 0, iw := 0 }

/-- An engine without a context. -/
def fresh (c : Config) (m : Memory) : State := { State.resetWith c with mem := m }

/-- An engine with a context, given its table and cursors. -/
def ready (c : Config) (m : Memory) (T : Table) (ca cb : Byte) : State :=
  { State.resetWith c with
    mem := m, cipher := { S := T, ca := ca, cb := cb }, valid := true, status := 0x10, seq := restSeq }

/-- The bench of most tests: the context of V3, the key and the text in memory. -/
def bench (c : Config) : State := ready c keyAndText (tableOf rowsV3) 0 0

/-- What an outcome's next state satisfies; nothing else does. -/
def holdsNext (o : Host.Outcome State Fault Refusal) (p : State → Bool) : Bool :=
  match o with
  | .next t => p t
  | .fault _ => false
  | .refused _ => false

/-- The bytes of memory from an address on. -/
def bytesFrom (m : Memory) (a n : Nat) : List Nat := (List.range n).map fun k => (m.read (a + k)).toNat

/-- The bench with wide accesses of four bytes. -/
abbrev wide4 : State := bench (straps 4 .le true)

/-- The bench without wide accesses. -/
abbrev narrow : State := bench (straps 8 .be false)

/-! ### WellFormed -/

/-- R8: MEM_BYTES is at least 1. -/
theorem test_no_memory_is_ill_formed : (straps 4 .le true).legal = true ∧
    Config.legal { straps 4 .le true with memBytes := 0 } = false := by decide

/-- R8: MEM_BYTES is at most 2^32. -/
theorem test_too_much_memory_is_ill_formed : Config.legal { straps 4 .le true with memBytes := 2 ^ 32 } = true ∧
    Config.legal { straps 4 .le true with memBytes := 2 ^ 32 + 1 } = false := by decide

/-- R8: CHUNK_BYTES is 4 or 8. -/
theorem test_chunk_width_is_checked : (straps 8 .be false).legal = true ∧ (straps 5 .be false).legal = false ∧
    (straps 0 .le true).legal = false := by decide

/-- R89: an operand must fit in 32 bits unsigned. -/
theorem test_operand_width_is_checked : AsmLine.wellFormed (.sched 0xFFFFFFFF 3) = true ∧
    AsmLine.wellFormed (.sched 0x100000000 3) = false ∧ AsmLine.wellFormed (.proci 0 0x100000000) = false := by decide

/-! ### Decoding (V19; the words are DW3, DW2, DW1, DW0) -/

/-- V19, rows 1 and 3. -/
theorem test_decode_sched :
    decode (0x00000003#32 ++ 0x00000000#32 ++ 0x00000100#32 ++ 0x00000001#32) = .legal (.sched 0x100 3) ∧
    decode 0xFFFFFFFF00000000FFFFFFFF00000001#128 = .legal (.sched 0xFFFFFFFF 0xFFFFFFFF) ∧
    encode (.sched 0x100 3) = 0x00000003000000000000010000000001#128 := by decide

/-- V19, rows 2, 4 and 5. -/
theorem test_decode_proc :
    decode (0x00000009#32 ++ 0x00000300#32 ++ 0x00000200#32 ++ 0x00000002#32) = .legal (.proc 0x200 0x300 9) ∧
    decode 0xFFFFFFFFFFFFFFFFFFFFFFFF00000002#128 = .legal (.proc 0xFFFFFFFF 0xFFFFFFFF 0xFFFFFFFF) ∧
    encode (.proc 0x200 0x300 9) = 0x00000009000003000000020000000002#128 := by decide

/-- V19, the illegal rows. -/
theorem test_decode_illegal :
    decode 0#128 = .illegal .unknownOpcode ∧ decode 3#128 = .illegal .unknownOpcode ∧
    decode 0xFF#128 = .illegal .unknownOpcode ∧
    decode 0x00000003000000000000010000000101#128 = .illegal .reservedBits ∧
    decode 0x00000009000003000000020000000102#128 = .illegal .reservedBits ∧
    decode 0x00000003000000010000010000000001#128 = .illegal .reservedWord ∧
    decode 0xFFFFFFFFFFFFFFFFFFFFFFFFFFFFFFFF#128 = .illegal .reservedBits := by decide

/-- The table words of the two rows. -/
theorem test_decode_table_word : decodeTableWord 128 0x00000003000000000000010000000001 = some (.sched 0x100 3) ∧
    decodeTableWord 128 2 = some (.proc 0 0 0) ∧ decodeTableWord 128 3 = none := by decide

/-- P1 and P3, the commands as written (R89, R90). -/
theorem test_assemble : assemble (.sched 0x100 3) = some 0x00000003000000000000010000000001#128 ∧
    assemble (.enc 0x200 0x300 9) = some 0x00000009000003000000020000000002#128 ∧
    assemble (.proci 0x200 9) = some 0x00000009000002000000020000000002#128 ∧
    assemble (.proc 0 0x100000000 1) = none := by decide

/-- P1's lines as text (R89, R91). -/
theorem test_listing_lines :
    readLine "sched  0x100, 3                   ; 00000001 00000100 00000000 00000003".toList =
      some (.command (.sched 0x100 3)) ∧
    readLine ".mem   0x100: 4B 65 79".toList = some (.mem 0x100 [0x4B, 0x65, 0x79]) ∧
    readLine ".resp  0x00000010".toList = some (.resp 0x10) ∧
    readLine "proc 0x200, 0x300, 0x100000000".toList = none := by decide

/-- What directives do at the bounds of memory and of a word (R91; the outcomes past them are notes/assumptions/18.md). -/
theorem test_listing_bounds :
    ListingLine.place (straps 4 .le true) (.mem 0xFFF [7]) [] = some [(0xFFF, 7)] ∧
    ListingLine.place (straps 4 .le true) (.mem 0xFFF [7, 7]) [] = none ∧
    ListingLine.agrees (.resp 0x10) { wide4 with responses := [0x10] } = true ∧
    ListingLine.agrees (.resp 0x100000010) { wide4 with responses := [0x10] } = false := by decide +kernel

/-- The words V19 prints for its second row. -/
theorem test_descriptor_text : descriptorText 0x00000009000003000000020000000002#128 =
    "00000002 00000200 00000300 00000009".toList := by decide

/-! ### The commands -/

/-- V3: the whole table `sched` builds from "Key", the cursors, VALID and the response. -/
theorem test_sched_key : holdsNext (exec (.sched 0x100 3) (fresh (straps 4 .le true) keyAndText)) (fun t =>
    t.cipher.S.toList.map BitVec.toNat == rowsV3 && t.cipher.ca == 0 && t.cipher.cb == 0 && t.valid &&
    t.status == 0x10) = true := by decide +kernel

/-- V17: a key length of 0 and of 257, and a key that ends past memory, with and without a context. -/
theorem test_sched_faults :
    holdsNext (exec (.sched 0x100 0) (fresh (straps 4 .le true) [])) (fun t => t.status == 0x01) = true ∧
    holdsNext (exec (.sched 0xFFFFFFFF 0) (fresh (straps 4 .le true) [])) (fun t => t.status == 0x01) = true ∧
    holdsNext (exec (.sched 0xFFE 3) (fresh (straps 4 .le true) [])) (fun t => t.status == 0x03) = true ∧
    holdsNext (exec (.sched 0x100 257) (bench (straps 4 .le true))) (fun t => t.status == 0x11) = true := by
  decide +kernel

/-- V1, V5, V6, V16: `proc` on "Plaintext" with the table of V3, under all eight settings of the straps. -/
theorem test_proc_known_vector : (eightStraps.all fun c =>
    holdsNext (exec (.proc 0x200 0x300 9) (bench c)) fun t =>
      bytesFrom t.mem 0x300 9 == [0xBB, 0xF3, 0x16, 0xE8, 0xD9, 0x40, 0xAF, 0x0A, 0xD3] && t.cipher.ca == 0x09 &&
      t.cipher.cb == 0xDE && t.status == 0x10 && t.cipher.S.toList.map BitVec.toNat == rowsV6) = true := by
  decide +kernel

/-- V17, V18: `proc` without a context, past the end of memory, with one byte shared, and with disjoint neighbours. -/
theorem test_proc_faults :
    holdsNext (exec (.proc 0xFFF 0xFFF 9) (fresh (straps 4 .le true) [])) (fun t => t.status == 0x02) = true ∧
    holdsNext (exec (.proc 0xFF8 0x300 9) (bench (straps 4 .le true))) (fun t => t.status == 0x13) = true ∧
    holdsNext (exec (.proc 0x200 0x208 9) (bench (straps 4 .le true))) (fun t => t.status == 0x14) = true ∧
    holdsNext (exec (.proc 0x200 0x209 9) (bench (straps 4 .le true))) (fun t => t.status == 0x10) = true := by
  decide +kernel

/-- V16, first row: the accesses with `W = 4` and `W = 8`, oldest first. -/
theorem test_proc_trace :
    holdsNext (exec (.proc 0x200 0x300 9) (bench (straps 4 .be true))) (fun t => t.bus.reverse ==
      [⟨.read, 0x200, 4⟩, ⟨.write, 0x300, 4⟩, ⟨.read, 0x204, 4⟩, ⟨.write, 0x304, 4⟩, ⟨.read, 0x208, 1⟩,
       ⟨.write, 0x308, 1⟩]) = true ∧
    holdsNext (exec (.proc 0x200 0x300 9) (bench (straps 8 .be true))) (fun t => t.bus.reverse ==
      [⟨.read, 0x200, 8⟩, ⟨.write, 0x300, 8⟩, ⟨.read, 0x208, 1⟩, ⟨.write, 0x308, 1⟩]) = true := by decide +kernel

/-! ### Parts -/

/-- V9 (b): `CA = CB`. Before: `CA = 15`, `CB = 4A`, `S[16] = CC`, `S[98] = 17`. -/
theorem test_equal_cursors :
    let T : Table := ((Vector.replicate 256 0).set 0x16 0xCC).set 0x98 0x17
    let r := keystreamStep { S := T, ca := 0x15, cb := 0x4A }
    r.cipher.ca = 0x16 ∧ r.cipher.cb = 0x16 ∧ r.ks = 0x17 ∧ r.cipher.S = T := by decide +kernel

/-- V10 (a): the index equals `CB`, so the keystream byte is `t`. -/
theorem test_index_equals_cursor :
    let T : Table := ((Vector.replicate 256 0).set 0xFD 0xD3).set 0x31 0x5E
    let r := keystreamStep { S := T, ca := 0xFC, cb := 0x5E }
    r.cipher.ca = 0xFD ∧ r.cipher.cb = 0x31 ∧ r.ks = 0xD3 := by decide +kernel

/-- V3, step 01: `id1 = 1`, `k = 65`, `S[1] = 01`, `id2` from 4B to B1. -/
theorem test_key_schedule_step :
    let s := { fresh (straps 4 .le true) keyAndText with
      cipher := { S := Table.identity, ca := 0, cb := 0 }
      seq := { restSeq with phase := .ksa, kaddrL := 0x100, klenL := 3, i := 1, id1 := 1, id2 := 0x4B } }
    (ksaStep s).seq.id2 = 0xB1 ∧ (ksaStep s).seq.id1 = 2 ∧ (ksaStep s).cipher.S.entry 1 = 0xB1 ∧
    (ksaStep s).cipher.S.entry 0xB1 = 1 := by decide +kernel

/-- V15: the packed keystream words. -/
theorem test_packing :
    let ks : Nat → Byte := fun k => BitVec.ofNat 8 ([0xEB, 0x9F, 0x77, 0x81, 0xB7, 0x34, 0xCA, 0x72].getD k 0)
    pack .le 4 ks = 0x81779FEB ∧ pack .be 4 ks = 0xEB9F7781 ∧ pack .le 8 ks = 0x72CA34B781779FEB ∧
    pack .be 8 ks = 0xEB9F7781B734CA72 := by decide

/-- V15: the input words of "Plaintext" at an aligned address. -/
theorem test_word_read : keyAndText.readWord .le 4 0x200 = 0x69616C50 ∧ keyAndText.readWord .be 4 0x200 = 0x506C6169 := by
  decide +kernel

/-- V20: a reset keeps memory and clears VALID and STATUS. -/
theorem test_reset : let t := (bench (straps 4 .le true)).hostReset
    t.valid = false ∧ t.status = 0 ∧ t.seq.phase = .idle ∧ t.mem = keyAndText := by decide +kernel

/-- V20: a reset during `proc`, `W = 4`, after one chunk: `BB F3 16 E8` then old bytes, no response. -/
theorem test_reset_during_proc :
    let s := { bench (straps 4 .le true) with port := [.commandReset (encode (.proc 0x200 0x300 9)) 1] }
    holdsNext (step s) (fun t => bytesFrom t.mem 0x300 9 == [0xBB, 0xF3, 0x16, 0xE8, 0, 0, 0, 0, 0] &&
      t.responses == [] && !t.valid) = true := by decide +kernel

/-- A table word placed for the fetch is what the next step runs (P1's last command). -/
theorem test_fetch_word : holdsNext
    (step ((bench (straps 8 .le true)).withFetchWord 128 0x00000009000003000000020000000002)) (fun t =>
      bytesFrom t.mem 0x300 3 == [0xBB, 0xF3, 0x16] && t.responses == [0x10]) = true := by decide +kernel

/-! ### Witnesses: the hypotheses of the statements are met -/

theorem witness_legal_straps : eightStraps.all Config.legal = true ∧
    (eightStraps.all fun c => c.memBytes == wide4.cfg.memBytes) = true := by decide

theorem witness_encodeOfDecode : decode 0x00000003000000000000010000000001#128 = .legal (.sched 0x100 3) := by decide

theorem witness_encodingWords :
    (0x00000003000000000000010000000001#128 &&& 0x00000000FFFFFFFF00000000FFFFFFFF#128 = 1#128) ∧
    (0xFFFFFFFFFFFFFFFFFFFFFFFF00000002#128 &&& 0x000000000000000000000000FFFFFFFF#128 = 2#128) := by decide

theorem witness_assembledLine : assemble (.proc 0xFFFFFFFF 0 1) = some (encode (.proc 0xFFFFFFFF 0 1)) ∧
    assemble (.sched 0xFFFFFFFF 1) = some (encode (.sched 0xFFFFFFFF 1)) := by decide

theorem witness_stepRunsDecoded : ∃ s : State, s.seq.phase = .idle ∧
    s.port = .command (encode (.proc 0x200 0x300 9)) :: [] ∧
    decode (encode (.proc 0x200 0x300 9)) = .legal (.proc 0x200 0x300 9) :=
  ⟨{ wide4 with port := [.command (encode (.proc 0x200 0x300 9))] }, rfl, rfl, by decide⟩

theorem witness_idle : wide4.seq.phase = .idle ∧ wide4.port = [] := ⟨rfl, rfl⟩

/-- Both arms of the statement on illegal descriptors, at the least change from one to the other. -/
theorem witness_illegalDescriptor :
    ((0x00000003000000010000010000000001#128).extractLsb' 0 8 = 1 ∧
      (0x00000003000000010000010000000001#128).extractLsb' 64 32 ≠ 0) ∧
    ((0x00000003000000000000010000000101#128).extractLsb' 8 24 ≠ 0) ∧
    ((0x3#128).extractLsb' 0 8 ≠ 1 ∧ (0x3#128).extractLsb' 0 8 ≠ 2) ∧
    ¬ (((0x00000003000000000000010000000001#128).extractLsb' 0 8 ≠ 1 ∧
        (0x00000003000000000000010000000001#128).extractLsb' 0 8 ≠ 2) ∨
      (0x00000003000000000000010000000001#128).extractLsb' 8 24 ≠ 0 ∨
      ((0x00000003000000000000010000000001#128).extractLsb' 0 8 = 1 ∧
        (0x00000003000000000000010000000001#128).extractLsb' 64 32 ≠ 0)) := by decide

/-- Key lengths at the two ends of the legal range, and one step outside it. -/
theorem witness_keyLength : ((0 : Word).toNat = 0 ∧ 257 ≤ (257 : Word).toNat) ∧
    ((1 : Word).toNat = 1 ∧ (0xFFF : Word).toNat + (1 : Word).toNat ≤ wide4.cfg.memBytes) ∧
    ((256 : Word).toNat = 256 ∧ (0xF00 : Word).toNat + (256 : Word).toNat ≤ wide4.cfg.memBytes) := by decide

/-- The shortest and the longest key, both at the end of memory. -/
theorem witness_acceptsSched : wide4.AcceptsSched 0xFFF 1 ∧ wide4.AcceptsSched 0xF00 256 ∧
    wide4.AcceptsSched 0x100 3 :=
  ⟨⟨by decide, by decide, by decide⟩, ⟨by decide, by decide, by decide⟩, ⟨by decide, by decide, by decide⟩⟩

theorem witness_keyScheduleStep : ∃ s : State,
    s.seq.id1.toNat < s.seq.klenL.toNat ∧ s.seq.klenL.toNat ≤ 256 ∧ s.seq.id1.toNat + 1 = s.seq.klenL.toNat :=
  ⟨{ wide4 with seq := { restSeq with klenL := 256, id1 := 255 } }, by decide, by decide, by decide⟩

/-- A SCHED outside the contract by its length and by its range. -/
theorem witness_schedRefused : ∃ t, exec (.sched 0xF01 256) wide4 = .next t ∧ ¬ wide4.AcceptsSched 0xF01 256 ∧
    ¬ wide4.AcceptsSched 0x100 257 := by
  obtain ⟨t, h⟩ := exec_next (.sched 0xF01 256) wide4
  exact ⟨t, h, fun g => absurd g.2.2 (by decide), fun g => absurd g.2.1 (by decide)⟩

theorem witness_schedResult : ∃ t, exec (.sched 0x100 3) wide4 = .next t ∧ wide4.AcceptsSched 0x100 3 := by
  obtain ⟨t, h⟩ := exec_next (.sched 0x100 3) wide4
  exact ⟨t, h, by decide, by decide, by decide⟩

/-- The same key at two addresses, in two engines with different straps. -/
theorem witness_sameKey : ∃ t v, wide4.AcceptsSched 0x100 3 ∧
    (fresh (straps 8 .be false) (bytesAt 0x7FD [0x4B, 0x65, 0x79])).AcceptsSched 0x7FD 3 ∧
    (∀ j < (3 : Word).toNat, wide4.mem.read ((0x100 : Word).toNat + j) =
      (fresh (straps 8 .be false) (bytesAt 0x7FD [0x4B, 0x65, 0x79])).mem.read ((0x7FD : Word).toNat + j)) ∧
    exec (.sched 0x100 3) wide4 = .next t ∧
    exec (.sched 0x7FD 3) (fresh (straps 8 .be false) (bytesAt 0x7FD [0x4B, 0x65, 0x79])) = .next v := by
  obtain ⟨t, h⟩ := exec_next (.sched 0x100 3) wide4
  obtain ⟨v, h'⟩ := exec_next (.sched 0x7FD 3) (fresh (straps 8 .be false) (bytesAt 0x7FD [0x4B, 0x65, 0x79]))
  exact ⟨t, v, ⟨by decide, by decide, by decide⟩, ⟨by decide, by decide, by decide⟩, by decide +kernel, h, h'⟩

/-- An engine with the key bytes at 0x10. -/
def keyed (key : List Nat) : State := fresh (straps 4 .le true) (bytesAt 0x10 key)

/-- "Key" and "KeyKey" (V7), and "Key" and its continuation to 256 bytes, whose length is no multiple of 3. -/
theorem witness_periodicKey : ∃ t v w, wide4.AcceptsSched 0x100 3 ∧
    (keyed [0x4B, 0x65, 0x79, 0x4B, 0x65, 0x79]).AcceptsSched 0x10 6 ∧
    (∀ i < 256, wide4.mem.read ((0x100 : Word).toNat + i % (3 : Word).toNat) =
      (keyed [0x4B, 0x65, 0x79, 0x4B, 0x65, 0x79]).mem.read ((0x10 : Word).toNat + i % (6 : Word).toNat)) ∧
    exec (.sched 0x100 3) wide4 = .next t ∧
    exec (.sched 0x10 6) (keyed [0x4B, 0x65, 0x79, 0x4B, 0x65, 0x79]) = .next v ∧
    (keyed ((List.range 256).map fun i => [0x4B, 0x65, 0x79].getD (i % 3) 0)).AcceptsSched 0x10 256 ∧
    (∀ i < 256, wide4.mem.read ((0x100 : Word).toNat + i % (3 : Word).toNat) =
      (keyed ((List.range 256).map fun i => [0x4B, 0x65, 0x79].getD (i % 3) 0)).mem.read
        ((0x10 : Word).toNat + i % (256 : Word).toNat)) ∧
    exec (.sched 0x10 256) (keyed ((List.range 256).map fun i => [0x4B, 0x65, 0x79].getD (i % 3) 0)) = .next w := by
  obtain ⟨t, h⟩ := exec_next (.sched 0x100 3) wide4
  obtain ⟨v, h'⟩ := exec_next (.sched 0x10 6) (keyed [0x4B, 0x65, 0x79, 0x4B, 0x65, 0x79])
  obtain ⟨w, h''⟩ := exec_next (.sched 0x10 256)
    (keyed ((List.range 256).map fun i => [0x4B, 0x65, 0x79].getD (i % 3) 0))
  exact ⟨t, v, w, ⟨by decide, by decide, by decide⟩, ⟨by decide, by decide, by decide⟩, by decide +kernel, h, h',
    ⟨by decide, by decide, by decide⟩, by decide +kernel, h''⟩

/-- The index premise of the keystream step, and both kinds of corner. -/
theorem witness_keystreamStep :
    (∃ (c : Cipher) (i : Byte), i.toNat = ((keystreamStep c).t.toNat + (keystreamStep c).u.toNat) % 256 ∧
      i ≠ (keystreamStep c).cipher.ca ∧ i ≠ (keystreamStep c).cipher.cb) ∧
    (∃ c : Cipher, (keystreamStep c).cipher.ca = (keystreamStep c).cipher.cb) ∧
    (∃ c : Cipher, (keystreamStep c).t + (keystreamStep c).u = (keystreamStep c).cipher.ca) ∧
    ∃ c : Cipher, (keystreamStep c).t + (keystreamStep c).u = (keystreamStep c).cipher.cb := by
  refine ⟨⟨wide4.cipher, 0x81, by decide +kernel, by decide +kernel, by decide +kernel⟩,
    ⟨{ S := Table.identity, ca := 0, cb := 0 }, by decide +kernel⟩,
    ⟨{ S := (Vector.replicate 256 0).set 1 1, ca := 0, cb := 5 }, by decide +kernel⟩,
    ⟨{ S := Vector.replicate 256 0, ca := 4, cb := 0 }, by decide +kernel⟩⟩

theorem witness_context : (fresh (straps 4 .le true) keyAndText).valid = false ∧ wide4.valid = true := ⟨rfl, rfl⟩

/-- The range checks one byte past the end of memory. -/
theorem witness_addrRange :
    (1 ≤ (256 : Word).toNat ∧ (256 : Word).toNat ≤ 256 ∧
      wide4.cfg.memBytes < (0xF01 : Word).toNat + (256 : Word).toNat) ∧
    (wide4.valid = true ∧ (9 : Word) ≠ 0 ∧ wide4.cfg.memBytes < (0xFF8 : Word).toNat + (9 : Word).toNat) ∧
    wide4.cfg.memBytes < (0xFFFFFFFF : Word).toNat + (2 : Word).toNat := by decide

/-- Both ranges end with memory; one pair overlaps by one byte, one is adjacent, one coincides (V18). -/
theorem witness_overlap : wide4.valid = true ∧ (9 : Word) ≠ 0 ∧
    (0xFF7 : Word).toNat + (9 : Word).toNat ≤ wide4.cfg.memBytes ∧
    ((0x200 : Word) ≠ 0x208 ∧ ∃ p < (9 : Word).toNat, ∃ q < (9 : Word).toNat,
      (0x200 : Word).toNat + p = (0x208 : Word).toNat + q) ∧
    (∀ p < (9 : Word).toNat, ∀ q < (9 : Word).toNat, (0x200 : Word).toNat + p ≠ (0x209 : Word).toNat + q) := by
  refine ⟨rfl, by decide, by decide, ⟨by decide, 8, by decide, 0, by decide, by decide⟩, by decide⟩

theorem keyAndText_wf : keyAndText.wf := by decide +kernel

theorem bench_mem_wf (c : Config) : (bench c).mem.wf := keyAndText_wf

/-- In place at the end of memory, adjacent ranges, and a zero length outside memory. -/
theorem witness_acceptsProc : wide4.mem.wf ∧ wide4.AcceptsProc 0xFF7 0xFF7 9 ∧ wide4.AcceptsProc 0x200 0x209 9 ∧
    wide4.AcceptsProc 0x209 0x200 9 ∧ wide4.AcceptsProc 0xFFFFFFFF 0 0 :=
  ⟨bench_mem_wf _, ⟨rfl, .inr ⟨by decide, by decide, .inl rfl⟩⟩,
    ⟨rfl, .inr ⟨by decide, by decide, .inr (.inl (by decide))⟩⟩,
    ⟨rfl, .inr ⟨by decide, by decide, .inr (.inr (by decide))⟩⟩, rfl, .inl rfl⟩

theorem narrow_accepts : narrow.AcceptsProc 0x200 0x300 9 :=
  ⟨rfl, .inr ⟨by decide, by decide, .inr (.inl (by decide))⟩⟩

theorem wide4_accepts : wide4.AcceptsProc 0x200 0x300 9 :=
  ⟨rfl, .inr ⟨by decide, by decide, .inr (.inl (by decide))⟩⟩

/-- A PROC outside the contract, one of length zero, one on the byte path. -/
theorem witness_procFrame : ∃ t t' t'', exec (.proc 0x200 0x208 9) wide4 = .next t ∧
    ¬ wide4.AcceptsProc 0x200 0x208 9 ∧ exec (.proc 0x200 0x208 0) wide4 = .next t' ∧
    exec (.proc 0x201 0x300 9) wide4 = .next t'' ∧ wideSelected wide4.cfg 0x201 0x300 9 = false := by
  obtain ⟨t, h⟩ := exec_next (.proc 0x200 0x208 9) wide4
  obtain ⟨t', h'⟩ := exec_next (.proc 0x200 0x208 0) wide4
  obtain ⟨t'', h''⟩ := exec_next (.proc 0x201 0x300 9) wide4
  refine ⟨t, t', t'', h, fun g => ?_, h', h'', by decide⟩
  have := (procCheck_none_iff_accepts _ _ _ _).2 g
  exact absurd this (by decide +kernel)

/-- A split in the middle and one with an empty part (V11). -/
theorem witness_split : wide4.cfg.legal = true ∧ wide4.AcceptsProc 0x200 0x300 9 ∧
    (9 : Word).toNat = (4 : Word).toNat + (5 : Word).toNat ∧ (9 : Word).toNat = (0 : Word).toNat + (9 : Word).toNat :=
  ⟨by decide, wide4_accepts, by decide, by decide⟩

/-- Nine bytes in one command, and in two commands on another engine (V11, row 4 + 5). -/
theorem witness_streaming : ∃ t u1 u2, wide4.mem.wf ∧ narrow.mem.wf ∧ narrow.cipher = wide4.cipher ∧
    (9 : Word).toNat = (4 : Word).toNat + (5 : Word).toNat ∧
    wide4.AcceptsProc 0x200 0x300 9 ∧ exec (.proc 0x200 0x300 9) wide4 = .next t ∧
    narrow.AcceptsProc 0x200 0x301 4 ∧ exec (.proc 0x200 0x301 4) narrow = .next u1 ∧
    u1.AcceptsProc 0x204 0x305 5 ∧ exec (.proc 0x204 0x305 5) u1 = .next u2 ∧
    (∀ p < (4 : Word).toNat, narrow.mem.read ((0x200 : Word).toNat + p) = wide4.mem.read ((0x200 : Word).toNat + p)) ∧
    ∀ p < (5 : Word).toNat, u1.mem.read ((0x204 : Word).toNat + p) =
      wide4.mem.read ((0x200 : Word).toNat + (4 : Word).toNat + p) := by
  have a1 : narrow.AcceptsProc 0x200 0x301 4 := ⟨rfl, .inr ⟨by decide, by decide, .inr (.inl (by decide))⟩⟩
  obtain ⟨t, ht⟩ := exec_next (.proc 0x200 0x300 9) wide4
  obtain ⟨u1, h1, r1⟩ := exec_proc_accepted a1 (by decide)
  obtain ⟨u2, h2⟩ := exec_next (.proc 0x204 0x305 5) u1
  refine ⟨t, u1, u2, bench_mem_wf _, bench_mem_wf _, rfl, by decide, wide4_accepts, ht, a1, h1,
    ⟨r1.valid, .inr ⟨by rw [r1.cfg]; decide, by rw [r1.cfg]; decide, .inr (.inl (by decide))⟩⟩, h2, fun p _ => rfl, ?_⟩
  intro p hp
  rw [r1.mem, xorBytes_read_outside _ _ _ _ _ (by have : p < 5 := hp; left; show 0x204 + p < 0x301; omega)]
  rfl

/-- P3 with three buffers, and in place. -/
theorem witness_selfInverse : wide4.cfg.legal = true ∧ wide4.mem.wf ∧ wide4.AcceptsSched 0x100 3 ∧
    (0x200 : Word).toNat + (9 : Word).toNat ≤ wide4.cfg.memBytes ∧
    (0xFF7 : Word).toNat + (9 : Word).toNat ≤ wide4.cfg.memBytes ∧
    ApartOrEqual 0x200 0xFF7 9 ∧ ApartOrEqual 0xFF7 0x200 9 ∧ ApartOrEqual 0x200 0x200 9 ∧
    ((0x100 : Word).toNat + (3 : Word).toNat ≤ (0xFF7 : Word).toNat ∨
      (0xFF7 : Word).toNat + (9 : Word).toNat ≤ (0x100 : Word).toNat) :=
  ⟨by decide, bench_mem_wf _, ⟨by decide, by decide, by decide⟩, by decide, by decide, .inr (.inl (by decide)),
    .inr (.inr (by decide)), .inl rfl, .inl (by decide)⟩

/-- One cipher state, different data and different buffers. -/
theorem witness_keystreamIgnoresData : ∃ t v, wide4.cipher = narrow.cipher ∧ wide4.AcceptsProc 0x200 0x300 9 ∧
    narrow.AcceptsProc 0x800 0x800 9 ∧ exec (.proc 0x200 0x300 9) wide4 = .next t ∧
    exec (.proc 0x800 0x800 9) narrow = .next v := by
  obtain ⟨t, h⟩ := exec_next (.proc 0x200 0x300 9) wide4
  obtain ⟨v, h'⟩ := exec_next (.proc 0x800 0x800 9) narrow
  exact ⟨t, v, rfl, wide4_accepts, ⟨rfl, .inr ⟨by decide, by decide, .inl rfl⟩⟩, h, h'⟩

/-- Two states with one context and different sequencers, ports and histories. -/
theorem witness_sameContext : ∃ u : State, u ≠ wide4 ∧ wide4.cipher = u.cipher ∧ wide4.valid = u.valid ∧
    wide4.cfg = u.cfg ∧ wide4.mem = u.mem :=
  ⟨{ wide4 with seq := { restSeq with srcL := 7 } },
    fun e => absurd (congrArg (fun x : State => x.seq.srcL) e) (by decide), rfl, rfl, rfl, rfl⟩

/-- Two engines without a context whose tables differ. -/
theorem witness_alike : ∃ s u : State, s.cipher ≠ u.cipher ∧ s.Alike u :=
  ⟨{ fresh (straps 4 .le true) keyAndText with cipher := { S := Table.identity, ca := 0, cb := 0 } },
    { fresh (straps 4 .le true) keyAndText with cipher := { S := Table.identity, ca := 1, cb := 0 } },
    fun e => absurd (congrArg Cipher.ca e) (by decide), ⟨rfl, rfl, rfl, rfl, rfl, rfl, fun h => by cases h⟩⟩

/-- A PROC that goes wide and one that does not. -/
theorem witness_paths : wide4.cfg.legal = true ∧ (9 : Word) ≠ 0 ∧ wide4.AcceptsProc 0x200 0x300 9 ∧
    wideSelected wide4.cfg 0x200 0x300 9 = true ∧ narrow.cfg.legal = true ∧ narrow.AcceptsProc 0x200 0x300 9 ∧
    wideSelected narrow.cfg 0x200 0x300 9 = false ∧ wideSelected wide4.cfg 0x200 0x300 3 = false :=
  ⟨by decide, by decide, wide4_accepts, by decide, by decide, narrow_accepts, by decide, by decide⟩

/-- The largest word of eight bytes, and the first and last byte of it. -/
theorem witness_word : wide4.mem.wf ∧ 0xFFFFFFFFFFFFFFFF < 2 ^ (8 * 8) ∧ 0 < 8 ∧ 7 < 8 ∧ ByteOrder.le ≠ ByteOrder.be :=
  ⟨bench_mem_wf _, by decide, by decide, by decide, by decide⟩

/-- A command that raises a fault. -/
theorem witness_fault : ∃ t, runDescriptor 3 wide4 = .next t ∧ statusCode t.status ≠ 0 :=
  ⟨wide4.raise .illegalCommand, rfl, by decide⟩

/-- Next states of both commands with and without a context, and of an illegal descriptor. -/
theorem witness_responses : (∃ t, exec (.sched 0x100 0) wide4 = .next t) ∧ (∃ t, exec (.proc 1 2 3) narrow = .next t) ∧
    decode 3 = .illegal .unknownOpcode ∧ ∃ t, runDescriptor 3 wide4 = .next t :=
  ⟨exec_next _ _, exec_next _ _, by decide, _, rfl⟩

theorem witness_firstCommand : (State.resetWith (straps 4 .le true)).AcceptsSched 0xF00 256 :=
  ⟨by decide, by decide, by decide⟩

theorem witness_resetOfIdle : ∃ s : State, s.seq.phase = .idle ∧ s.valid = true ∧ s.port = .reset :: [] :=
  ⟨{ wide4 with port := [.reset] }, rfl, rfl, rfl⟩

/-- VALID cleared by a reset. -/
theorem witness_validCleared : ∃ s t : State, step s = .next t ∧ s.valid = true ∧ t.valid = false :=
  ⟨{ wide4 with port := [.reset] }, _, rfl, rfl, rfl⟩

/-- VALID set by a SCHED. -/
theorem witness_validSet : ∃ s t : State, step s = .next t ∧ s.valid = false ∧ t.valid = true := by
  have ha : (fresh (straps 4 .le true) keyAndText).AcceptsSched 0x100 3 := ⟨by decide, by decide, by decide⟩
  obtain ⟨t, h, r⟩ := exec_sched_accepted ha
  refine ⟨{ fresh (straps 4 .le true) keyAndText with port := [.command (encode (.sched 0x100 3))] }, t, ?_, rfl, r.valid⟩
  rw [step_idle_cons rfl rfl, handle, runDescriptor,
    show decode (encode (.sched 0x100 3)) = .legal (.sched 0x100 3) by decide]
  exact h

/-- The bench with given events on its port. -/
def facing (events : List HostEvent) : State := { wide4 with port := events }

/-- A reset during a PROC and during a SCHED. -/
theorem witness_resetDuring : ∃ s u : State, s.cfg.legal = true ∧ s.mem.wf ∧ s.seq.phase = .idle ∧
    s.AcceptsProc 0x200 0x300 9 ∧ (9 : Word) ≠ 0 ∧ s.port = .commandReset (encode (.proc 0x200 0x300 9)) 2 :: [] ∧
    u.seq.phase = .idle ∧ u.AcceptsSched 0x100 3 ∧ u.port = .commandReset (encode (.sched 0x100 3)) 100 :: [] := by
  refine ⟨facing [.commandReset (encode (.proc 0x200 0x300 9)) 2],
    facing [.commandReset (encode (.sched 0x100 3)) 100], ?_, keyAndText_wf, rfl, wide4_accepts, ?_, rfl, rfl, ?_, rfl⟩
  · decide
  · decide
  · exact ⟨by decide, by decide, by decide⟩

/-- The commands that leave nothing behind when a reset comes: a refused PROC (V18), one of length zero, a refused SCHED,
an illegal descriptor. -/
theorem witness_resetDuringRefused :
    (decode (encode (.proc 0x200 0x208 9)) = .legal (.proc 0x200 0x208 9) ∧ ¬ (facing
      [.commandReset (encode (.proc 0x200 0x208 9)) 2]).AcceptsProc 0x200 0x208 9) ∧
    decode (encode (.proc 1 2 0)) = .legal (.proc 1 2 0) ∧
    (decode (encode (.sched 0x100 257)) = .legal (.sched 0x100 257) ∧ ¬ (facing
      [.commandReset (encode (.sched 0x100 257)) 2]).AcceptsSched 0x100 257) ∧
    decode 3 = .illegal .unknownOpcode ∧ (facing [.commandReset 3 0]).seq.phase = .idle ∧
    (facing [.commandReset 3 0]).port = .commandReset 3 0 :: [] := by
  refine ⟨⟨by decide, fun g => ?_⟩, by decide, ⟨by decide, fun g => absurd g.2.1 (by decide)⟩, by decide, rfl, rfl⟩
  exact absurd ((procCheck_none_iff_accepts _ _ _ _).2 g) (by decide +kernel)

/-- An engine in the middle of a PROC on the wide path: one chunk done, two to go. -/
def busy : State :=
  { ready (straps 4 .le true) keyAndText Table.identity 0 0 with
    seq := { restSeq with phase := .wide, srcL := 0x200, dstL := 0xFF0, lenL := 16, pos := 4 } }

theorem witness_busy : busy.seq.phase ≠ .idle := by decide

/-- The invariant holds of a busy engine, and of an idle one with a context. -/
theorem witness_inv : busy.Inv ∧ State.Inv { busy with seq := restSeq } := by
  have w : keyAndText.wf := by decide +kernel
  have n : keyAndText.within 0x1000 := by decide +kernel
  exact ⟨⟨by decide, w, n, fun _ => Table.identity_isPermutation, ⟨.ok, rfl⟩, by decide,
      ⟨rfl, ⟨by decide, by decide, by decide⟩, by decide, by decide, by decide⟩⟩,
    ⟨by decide, w, n, fun _ => Table.identity_isPermutation, ⟨.ok, rfl⟩, by decide, trivial⟩⟩

theorem witness_stepOfInv : ∃ s t : State, s.Inv ∧ step s = .next t :=
  ⟨busy, tick busy, witness_inv.1, step_busy witness_busy⟩

theorem witness_permutation : ∃ s : State, s.cipher.S.IsPermutation := ⟨busy, Table.identity_isPermutation⟩

/-- A host write at the last address of memory, and at the first one past it. -/
theorem witness_hostWrite : ∃ s u : State, s.mem.wf ∧ s.seq.phase = .idle ∧ s.port = .write 0xFFF 7 :: [] ∧
    (0xFFF : Word).toNat < s.cfg.memBytes ∧ u.mem.wf ∧ u.seq.phase = .idle ∧ u.port = .write 0x1000 7 :: [] ∧
    ¬ (0x1000 : Word).toNat < u.cfg.memBytes := by
  refine ⟨facing [.write 0xFFF 7], facing [.write 0x1000 7], keyAndText_wf, rfl, rfl, ?_, keyAndText_wf, rfl, rfl, ?_⟩
  · decide
  · decide

/-- Canonical memories that read alike. -/
theorem witness_memory : Memory.wf (Memory.write keyAndText 0x100 0) ∧ Memory.wf keyAndText := by decide +kernel

end Sys2Proof.Tests
end

section
/-! PROOFS. The micro-steps of PROC, and that the result of a command depends on the context, the straps, memory and the
descriptor only (10_state.md). -/

namespace Sys2Proof.Machine

/-! ### The micro-steps of PROC (R35, R36) -/

/-- A packed word depends on the bytes of its `W` lanes only (R54, R143). -/
theorem pack_congr (order : ByteOrder) {W : Nat} {f g : Nat → Byte} (h : ∀ k < W, f k = g k) :
    pack order W f = pack order W g := by
  unfold pack
  exact congrArg List.sum (List.map_congr_left fun k hk => by rw [h k (List.mem_range.1 hk)])

/-- The packed word of the bytes gathered for a chunk is that of the keystream (R143, R145). -/
theorem pack_gatherKeystream (order : ByteOrder) (n : Nat) (s : State) :
    pack order n (fun k => (gatherKeystream n s).1.getD k 0) = pack order n s.cipher.keystream :=
  pack_congr order fun _ hk => gatherKeystream_getD n s hk

/-- A chunk, field by field: T, U and KS are those of its last keystream step (R36, R145). -/
theorem chunkStep_state (s : State) :
    ∃ t u ks, chunkStep s = { s with
      cipher := s.cipher.advance s.cfg.chunkBytes
      mem := s.mem.writeWord s.cfg.byteOrder s.cfg.chunkBytes (outputAddr s)
        (s.mem.readWord s.cfg.byteOrder s.cfg.chunkBytes (inputAddr s) ^^^
          pack s.cfg.byteOrder s.cfg.chunkBytes s.cipher.keystream)
      bus := { kind := .write, addr := outputAddr s, width := s.cfg.chunkBytes } ::
        { kind := .read, addr := inputAddr s, width := s.cfg.chunkBytes } :: s.bus
      seq := { s.seq with
        t := t, u := u, ks := ks
        kw := pack s.cfg.byteOrder s.cfg.chunkBytes s.cipher.keystream
        iw := s.mem.readWord s.cfg.byteOrder s.cfg.chunkBytes (inputAddr s)
        pos := s.seq.pos + BitVec.ofNat 32 s.cfg.chunkBytes } } := by
  obtain ⟨t, u, ks, e⟩ := gatherKeystream_state s.cfg.chunkBytes s
  refine ⟨t, u, ks, ?_⟩
  simp only [chunkStep, pack_gatherKeystream, e]
  rfl

/-- Settles O22: the byte step by its field lemmas, the chunk by `chunkStep_state`. -/
theorem microStepsOfProc : Obligations.MicroStepsOfProc := by
  intro s
  refine ⟨⟨rfl, rfl, rfl, rfl, byteStep_mem s, byteStep_bus s, ?_⟩, ?_⟩
  · simp
  · obtain ⟨t, u, ks, e⟩ := chunkStep_state s
    simp [e, inputAddr, outputAddr]

/-! ### What the result of a command depends on (R25) -/

/-- Two states agree on what the result of a command may depend on: the cipher state, VALID, the straps and memory
(R25). -/
structure State.SameContext (s u : State) : Prop where
  cipher : s.cipher = u.cipher
  valid : s.valid = u.valid
  cfg : s.cfg = u.cfg
  mem : s.mem = u.mem

/-- The same response to two such states leaves the same result. -/
theorem State.SameContext.respond {s u : State} (h : s.SameContext u) (c : Code) :
    (s.respond c).SameResult (u.respond c) ∧ (s.respond c).cfg = (u.respond c).cfg :=
  ⟨⟨h.cipher, h.valid, by rw [respond_status, respond_status, h.valid], h.mem⟩, h.cfg⟩

/-- A SCHED that a check refuses raises that check's fault (R101, R165). -/
theorem exec_sched_refused {s : State} {kaddr klen : Word} {c : Code} (h : schedCheck s.cfg kaddr klen = some c) :
    exec (.sched kaddr klen) s = .next (s.raise c) := by
  simp only [exec, execSched, h]

/-- A PROC that a check refuses raises that check's fault (R121, R165). -/
theorem exec_proc_refused {s : State} {src dst len : Word} {c : Code}
    (h : procCheck s.cfg s.valid src dst len = some c) : exec (.proc src dst len) s = .next (s.raise c) := by
  simp only [exec, execProc, h]

/-- Accepted SCHEDs build the same context from the same key, whatever context they found (R25, R107). -/
theorem State.SameContext.schedResult {s u t v : State} (h : s.SameContext u) {kaddr klen : Word}
    (ht : SchedResult s kaddr klen t) (hv : SchedResult u kaddr klen v) : t.SameResult v ∧ t.cfg = v.cfg :=
  ⟨⟨by rw [ht.cipher, hv.cipher, h.mem], by rw [ht.valid, hv.valid], by rw [ht.status, hv.status],
    by rw [ht.mem, hv.mem, h.mem]⟩, by rw [ht.cfg, hv.cfg, h.cfg]⟩

/-- Accepted PROCs transfer the same bytes with the same keystream (R25, R127). -/
theorem State.SameContext.procResult {s u t v : State} (h : s.SameContext u) {src dst len : Word}
    (ht : ProcResult s src dst len t) (hv : ProcResult u src dst len v) : t.SameResult v ∧ t.cfg = v.cfg :=
  ⟨⟨by rw [ht.cipher, hv.cipher, h.cipher], by rw [ht.valid, hv.valid], by rw [ht.status, hv.status],
    by rw [ht.mem, hv.mem, h.cipher, h.mem]⟩, by rw [ht.cfg, hv.cfg, h.cfg]⟩

/-- SCHED: the check reads the straps, the schedule reads the key in memory (R25, R101). -/
theorem State.SameContext.exec_sched {s u : State} (h : s.SameContext u) (kaddr klen : Word) :
    ∃ t v, exec (.sched kaddr klen) s = .next t ∧ exec (.sched kaddr klen) u = .next v ∧
      t.SameResult v ∧ t.cfg = v.cfg := by
  rcases execSched_cases s kaddr klen with ⟨c, hc, -, hs⟩ | ⟨ha, t, hs, ht⟩
  · exact ⟨_, _, hs, exec_sched_refused (h.cfg ▸ hc), h.respond c⟩
  · obtain ⟨v, hu, hv⟩ := exec_sched_accepted (s := u) (by rwa [State.AcceptsSched, ← h.cfg])
    exact ⟨t, v, hs, hu, h.schedResult ht hv⟩

/-- PROC: the check reads the straps and VALID, the transfer the cipher state and memory (R25, R121). -/
theorem State.SameContext.exec_proc {s u : State} (h : s.SameContext u) (src dst len : Word) :
    ∃ t v, exec (.proc src dst len) s = .next t ∧ exec (.proc src dst len) u = .next v ∧
      t.SameResult v ∧ t.cfg = v.cfg := by
  rcases execProc_cases s src dst len with ⟨c, hc, hs⟩ | ⟨ha, rfl, hs⟩ | ⟨ha, h0, t, hs, ht⟩
  · exact ⟨_, _, hs, exec_proc_refused (h.cfg ▸ h.valid ▸ hc), h.respond c⟩
  · exact ⟨_, _, hs, exec_proc_zero (h.valid ▸ ha.1), h.respond .ok⟩
  · obtain ⟨v, hu, hv⟩ := exec_proc_accepted (s := u) (by rwa [State.AcceptsProc, ← h.valid, ← h.cfg]) h0
    exact ⟨t, v, hs, hu, h.procResult ht hv⟩

/-- Settles O33, command by command. -/
theorem resultDependsOnContextOnly : Obligations.ResultDependsOnContextOnly := by
  intro s u i hcipher hvalid hcfg hmem
  have h : s.SameContext u := ⟨hcipher, hvalid, hcfg, hmem⟩
  cases i with
  | sched kaddr klen => exact h.exec_sched kaddr klen
  | proc src dst len => exact h.exec_proc src dst len

end Sys2Proof.Machine
end

section
/-! PROOFS. The place of each byte of a word in memory under either byte order, and the accesses each command makes
(20_memory.md). -/

namespace Sys2Proof.Machine

/-! ### The bytes of a word (R54) -/

theorem laneByte_toNat (order : ByteOrder) (W v k : Nat) :
    (laneByte order W v k).toNat = v / 2 ^ laneShift order W k % 256 := rfl

/-- A word of one byte has its only lane at bit 0. -/
@[simp] theorem laneShift_one_zero (order : ByteOrder) : laneShift order 1 0 = 0 := by
  cases order <;> rfl

theorem Memory.readWord_eq_sum (order : ByteOrder) (W : Nat) (m : Memory) (a : Nat) :
    m.readWord order W a = ∑ j ∈ Finset.range W, (m.read (a + j)).toNat * 2 ^ laneShift order W j :=
  sum_map_range W _

theorem Memory.readWord_lt (order : ByteOrder) (W : Nat) (m : Memory) (a : Nat) :
    m.readWord order W a < 2 ^ (8 * W) := pack_lt order W _

/-- Lane `k` of the word read at `a` is the byte at `a + k`. -/
theorem Memory.readWord_lane (order : ByteOrder) {W k : Nat} (hk : k < W) (m : Memory) (a : Nat) :
    m.readWord order W a / 2 ^ laneShift order W k % 256 = (m.read (a + k)).toNat := by
  rw [← laneByte_toNat, Memory.readWord, laneByte_pack order W _ k hk]

/-- The byte at `a + k` after a word write at `a` is lane `k` of the word. -/
theorem Memory.read_writeWord_lane {m : Memory} (h : m.wf) (order : ByteOrder) {W k : Nat} (hk : k < W) (a v : Nat) :
    ((m.writeWord order W a v).read (a + k)).toNat = v / 2 ^ laneShift order W k % 256 := by
  rw [Memory.read_writeWord h, if_pos (by omega), Nat.add_sub_cancel_left, laneByte_toNat]

theorem Memory.readWord_one (order : ByteOrder) (m : Memory) (a : Nat) :
    m.readWord order 1 a = (m.read a).toNat := by
  simp [Memory.readWord_eq_sum]

theorem Memory.writeWord_one (order : ByteOrder) (m : Memory) (a : Nat) (b : Byte) :
    m.writeWord order 1 a b.toNat = m.write a b := by
  have hb : laneByte order 1 b.toNat 0 = b := by simp [laneByte]
  simp [Memory.writeWord, hb]

/-- Settles O38: what holds of lane `k` under any byte order, read at LE (lane at bit `8·k`) and at BE
(lane at bit `8·(W − 1 − k)`). -/
theorem wordBytesInOrder : Obligations.WordBytesInOrder := fun W _ m a v hm hk =>
  ⟨Memory.readWord_eq_sum .le W m a, Memory.readWord_eq_sum .be W m a,
    Memory.readWord_lt .le W m a, Memory.readWord_lt .be W m a,
    Memory.readWord_lane .le hk m a, Memory.readWord_lane .be hk m a,
    Memory.read_writeWord_lane hm .le hk a v, Memory.read_writeWord_lane hm .be hk a v,
    fun order => Memory.readWord_one order m a, fun order b => Memory.writeWord_one order m a b⟩

/-! ### The accesses of a command (R60) -/

theorem commandTrace_sched_accepted {s : State} {kaddr klen : Word} (h : s.AcceptsSched kaddr klen) :
    commandTrace (.sched kaddr klen) s = schedTrace kaddr klen :=
  if_pos ((schedCheck_none_iff_accepts _ _ _).2 h)

theorem commandTrace_sched_refused {s : State} {kaddr klen : Word} {c : Code}
    (h : schedCheck s.cfg kaddr klen = some c) : commandTrace (.sched kaddr klen) s = [] :=
  if_neg (by simp [h])

theorem commandTrace_proc_accepted {s : State} {src dst len : Word} (h : s.AcceptsProc src dst len) (h0 : len ≠ 0) :
    commandTrace (.proc src dst len) s = procTrace s.cfg src dst len :=
  if_pos ⟨(procCheck_none_iff_accepts _ _ _ _).2 h, h0⟩

theorem commandTrace_proc_refused {s : State} {src dst len : Word} {c : Code}
    (h : procCheck s.cfg s.valid src dst len = some c) : commandTrace (.proc src dst len) s = [] :=
  if_neg (by simp [h])

theorem commandTrace_proc_zero (s : State) (src dst : Word) : commandTrace (.proc src dst 0) s = [] :=
  if_neg (by simp)

/-- Whatever the straps, the memory port gains exactly the accesses of the command's trace. -/
theorem exec_bus (i : Instr) (s : State) :
    ∃ t, exec i s = .next t ∧ t.bus = (commandTrace i s).reverse ++ s.bus := by
  cases i with
  | sched kaddr klen =>
    rcases execSched_cases s kaddr klen with ⟨c, hc, -, hs⟩ | ⟨ha, t, hs, ht⟩
    · exact ⟨_, hs, by rw [commandTrace_sched_refused hc]; rfl⟩
    · exact ⟨t, hs, by rw [commandTrace_sched_accepted ha, ht.bus]⟩
  | proc src dst len =>
    rcases execProc_cases s src dst len with ⟨c, hc, hs⟩ | ⟨-, rfl, hs⟩ | ⟨ha, h0, t, hs, ht⟩
    · exact ⟨_, hs, by rw [commandTrace_proc_refused hc]; rfl⟩
    · exact ⟨_, hs, by rw [commandTrace_proc_zero]; rfl⟩
    · exact ⟨t, hs, by rw [commandTrace_proc_accepted ha h0, ht.bus]⟩

/-- Settles O41, by `exec_bus`. -/
theorem exactAccessTrace : Obligations.ExactAccessTrace := fun s i _ => exec_bus i s

end Sys2Proof.Machine
end

section
/-! PROOFS. The encoding: the words of a descriptor, which descriptors are illegal, and the pseudo-instructions
(30_encoding.md). -/

namespace Sys2Proof.Machine

/-! ### Which descriptors are legal (R86) -/

/-- The grounds of R86 turned round, from the one way to be legal of each command. -/
theorem decode_legal_iff (D : Descriptor) :
    (∃ i, decode D = .legal i) ↔ rsv0Field D = 0 ∧ (opcField D = 1 ∧ a2Field D = 0 ∨ opcField D = 2) := by
  constructor
  · rintro ⟨i, hi⟩
    cases i with
    | sched kaddr klen =>
      obtain ⟨hrsv0, hopc, hrsv2, -, -⟩ := (decode_sched_iff D kaddr klen).1 hi
      exact ⟨hrsv0, .inl ⟨hopc, hrsv2⟩⟩
    | proc src dst len =>
      obtain ⟨hrsv0, hopc, -, -, -⟩ := (decode_proc_iff D src dst len).1 hi
      exact ⟨hrsv0, .inr hopc⟩
  · rintro ⟨hrsv0, ⟨hopc, hrsv2⟩ | hopc⟩
    · exact ⟨_, (decode_sched_iff D _ _).2 ⟨hrsv0, hopc, hrsv2, rfl, rfl⟩⟩
    · exact ⟨_, (decode_proc_iff D _ _ _).2 ⟨hrsv0, hopc, rfl, rfl, rfl⟩⟩

/-- The decoder's two answers exclude each other. -/
theorem decode_legal_iff_not_illegal (D : Descriptor) :
    (∃ i, decode D = .legal i) ↔ ¬ ∃ why, decode D = .illegal why := by
  cases decode D <;> simp

/-- The three grounds of R86. -/
theorem decode_illegal_iff (D : Descriptor) :
    (∃ why, decode D = .illegal why) ↔
      (opcField D ≠ 1 ∧ opcField D ≠ 2) ∨ rsv0Field D ≠ 0 ∨ (opcField D = 1 ∧ a2Field D ≠ 0) := by
  have hne : opcField D = 1 → opcField D ≠ 2 := fun h => h ▸ by decide
  rw [← not_iff_not, ← decode_legal_iff_not_illegal, decode_legal_iff]
  tauto

theorem runDescriptor_illegal {D : Descriptor} {why : Illegal} (h : decode D = .illegal why) (s : State) :
    runDescriptor D s = .next (s.raise .illegalCommand) := by
  rw [runDescriptor, h]

/-- Settles O11: by `decode_illegal_iff` the bits say which of its two answers the decoder gives, and an illegal
descriptor does nothing but raise IllegalCommand. -/
theorem illegalDescriptorRaises : Obligations.IllegalDescriptorRaises := by
  intro D s
  split
  · next hbits =>
    obtain ⟨why, hwhy⟩ := (decode_illegal_iff D).2 hbits
    exact ⟨_, runDescriptor_illegal hwhy s, statusCode_responseWord _ _, rfl, rfl, rfl, rfl⟩
  · next hbits => exact (decode_legal_iff_not_illegal D).2 (mt (decode_illegal_iff D).1 hbits)

/-! ### The words of a descriptor (R84, R85) -/

/-- The row of SCHED fixes DW0 and DW2 (R84); the other two words are the operands. -/
theorem eq_encode_sched_of_fits {D : Descriptor} (h : schedRow.fits D = true) :
    D = encode (.sched (descriptorWord D 1) (descriptorWord D 3)) := by
  obtain ⟨h0, h2⟩ := (schedRow_fits_iff D).1 h
  calc D = descriptorWord D 3 ++ descriptorWord D 2 ++ descriptorWord D 1 ++ descriptorWord D 0 := descriptor_eq_words D
    _ = encode (.sched (descriptorWord D 1) (descriptorWord D 3)) := by rw [h0, h2]; rfl

/-- The row of PROC fixes DW0 only (R85); the other three words are the operands. -/
theorem eq_encode_proc_of_fits {D : Descriptor} (h : procRow.fits D = true) :
    D = encode (.proc (descriptorWord D 1) (descriptorWord D 2) (descriptorWord D 3)) :=
  calc D = descriptorWord D 3 ++ descriptorWord D 2 ++ descriptorWord D 1 ++ descriptorWord D 0 := descriptor_eq_words D
    _ = encode (.proc (descriptorWord D 1) (descriptorWord D 2) (descriptorWord D 3)) := by
      rw [(procRow_fits_iff D).1 h]; rfl

/-- The encoding of an instruction has the match of its own row under that row's mask (R92). -/
theorem fits_row_encode (i : Instr) : (Laws.FitsRow.row i).fits (encode i) = true := by
  cases i with
  | sched kaddr klen => exact (Laws.FitsRow.sched kaddr klen schedRow (by simp)).2 rfl
  | proc src dst len => exact (Laws.FitsRow.proc src dst len procRow (by simp)).2 rfl

/-- Settles O3: the words by the laws of a descriptor put together from four, mask and match as those of the opcode
table's row. -/
theorem encodingWords : Obligations.EncodingWords :=
  ⟨fun kaddr klen => ⟨rfl, descriptorWord_zero .., descriptorWord_one .., descriptorWord_two ..,
      descriptorWord_three .., beq_iff_eq.1 (fits_row_encode (.sched kaddr klen)),
      fun _ h => eq_encode_sched_of_fits (beq_iff_eq.2 h)⟩,
    fun src dst len => ⟨rfl, descriptorWord_zero .., descriptorWord_one .., descriptorWord_two ..,
      descriptorWord_three .., beq_iff_eq.1 (fits_row_encode (.proc src dst len)),
      fun _ h => eq_encode_proc_of_fits (beq_iff_eq.2 h)⟩⟩

/-! ### The pseudo-instructions (R90) -/

/-- The assembler sees of a line its command and whether its operands fit. -/
theorem assemble_congr {l l' : AsmLine} (hwf : l.wellFormed = l'.wellFormed) (hi : l.instr = l'.instr) :
    assemble l = assemble l' := by
  rw [assemble, assemble, hwf, hi]

/-- `proci` writes its buffer once and `proc` twice; the same operands have to fit. -/
theorem proci_wellFormed (buf len : Nat) :
    (AsmLine.proci buf len).wellFormed = (AsmLine.proc buf buf len).wellFormed := by
  simp [AsmLine.wellFormed, AsmLine.operands]

/-- Settles O6: `enc` and `dec` have the operands and the command of `proc`; for `proci`, `proci_wellFormed`. -/
theorem pseudoInstructionsAreProc : Obligations.PseudoInstructionsAreProc := fun _ _ buf len =>
  ⟨assemble_congr rfl rfl, assemble_congr rfl rfl, assemble_congr (proci_wellFormed buf len) rfl⟩

end Sys2Proof.Machine
end

section
/-! PROOFS. The key scheduler: which key lengths SCHED accepts, one key-schedule step value by value, the context SCHED
builds and what that context depends on (40_key_schedule.md). -/

namespace Sys2Proof.Machine

/-! ### The key length (R106) -/

/-- The key length is the first check, so an illegal one is refused for its own sake, whatever the address. -/
theorem schedCheck_keyLength (cfg : Config) (kaddr : Word) {klen : Word} (h : klen.toNat = 0 ∨ 257 ≤ klen.toNat) :
    schedCheck cfg kaddr klen = some .invalidKeyLength := by
  have hv : keyLengthValid klen ≠ true := fun hv => by
    have := (keyLengthValid_iff klen).1 hv
    omega
  simp [schedCheck, hv]

/-- Settles O13: an illegal length by `schedCheck_keyLength`; the lengths 1 and 256 are within the contract where the
key lies in memory. -/
theorem invalidKeyLengthRaised : Obligations.InvalidKeyLengthRaised := by
  intro s kaddr klen
  constructor
  · intro hlen
    exact ⟨_, exec_sched_refused (schedCheck_keyLength s.cfg kaddr hlen), statusCode_responseWord _ _,
      rfl, rfl, rfl, rfl⟩
  · intro hlen hrange
    have ha : s.AcceptsSched kaddr klen := ⟨by omega, by omega, hrange⟩
    obtain ⟨t, hs, ht⟩ := exec_sched_accepted ha
    exact ⟨t, hs, by rw [ht.status, statusCode_responseWord]; rfl⟩

/-! ### One key-schedule step (R103) -/

@[simp] theorem Table.entry_exchange_left (T : Table) (i j : Byte) : (T.exchange i j).entry i = T.entry j := by
  rw [Table.entry_exchange, Equiv.swap_apply_left]

@[simp] theorem Table.entry_exchange_right (T : Table) (i j : Byte) : (T.exchange i j).entry j = T.entry i := by
  rw [Table.entry_exchange, Equiv.swap_apply_right]

theorem Table.entry_exchange_of_ne (T : Table) {i j k : Byte} (hi : k ≠ i) (hj : k ≠ j) :
    (T.exchange i j).entry k = T.entry k := by
  rw [Table.entry_exchange, Equiv.swap_apply_of_ne_of_ne hi hj]

/-- The comparison with KLEN has 9 bits, so `id1 + 1 = 256` is seen by a key of 256 bytes (R103, R110). -/
theorem nextKeyIndex_toNat_eq (id1 : Byte) (klen : BitVec 9) :
    (nextKeyIndex id1 klen).toNat = if id1.toNat + 1 = klen.toNat then 0 else (id1.toNat + 1) % 256 := by
  have hadd : (id1.setWidth 9 + 1).toNat = id1.toNat + 1 := by simp; omega
  have hcmp : id1.setWidth 9 + 1 = klen ↔ id1.toNat + 1 = klen.toNat := by rw [← hadd, BitVec.toNat_inj]
  simp only [nextKeyIndex, hcmp]
  split
  · rfl
  · simp

/-- `id1` stays in `0 .. KLEN − 1` (R103). -/
theorem nextKeyIndex_lt {id1 : Byte} {klen : BitVec 9} (h : id1.toNat < klen.toNat) (hk : klen.toNat ≤ 256) :
    (nextKeyIndex id1 klen).toNat < klen.toNat := by
  rw [nextKeyIndex_toNat_eq]
  split <;> omega

/-- The key byte, the entry and the old `id2` add up modulo 256 (R103). -/
theorem nextId2_toNat (s : State) :
    (nextId2 s).toNat = ((keyByte s).toNat + (s.cipher.S.entry (stepIndex s)).toNat + s.seq.id2.toNat) % 256 := by
  simp [nextId2]

/-- Settles O15: `id2` by `nextId2_toNat`, the table by the laws of a swap, `id1` by those of `nextKeyIndex`, the rest
by the field lemmas of `ksaStep`. -/
theorem keyScheduleStep : Obligations.KeyScheduleStep := by
  intro s
  exact ⟨nextId2_toNat s, Table.entry_exchange_left .., Table.entry_exchange_right ..,
    fun j hi hid2 => Table.entry_exchange_of_ne _ hi hid2, nextKeyIndex_toNat_eq _ _, nextKeyIndex_lt,
    BitVec.toNat_add _ _, ksaStep_bus s, rfl, rfl, rfl, rfl⟩

/-! ### What SCHED builds (R104, R107) -/

/-- Settles O14, by `SchedResult`, what an accepted SCHED leaves. -/
theorem schedBuildsContext : Obligations.SchedBuildsContext := by
  intro s kaddr klen ha
  obtain ⟨t, hs, ht⟩ := exec_sched_accepted ha
  exact ⟨t, hs, by rw [ht.cipher, scheduled], by rw [ht.cipher, scheduled], by rw [ht.cipher, scheduled],
    ht.valid, ht.status, ht.responses, ht.mem⟩

/-- An accepted SCHED that answers `t` leaves in `t` the result of SCHED. -/
theorem schedResult_of_exec {s t : State} {kaddr klen : Word} (ha : s.AcceptsSched kaddr klen)
    (h : exec (.sched kaddr klen) s = .next t) : SchedResult s kaddr klen t := by
  obtain ⟨t', hs, ht⟩ := exec_sched_accepted ha
  obtain rfl : t' = t := by simpa [hs] using h
  exact ht

/-- The cipher state of a key depends on the key bytes its 256 steps use only (R107, R111). -/
theorem scheduled_congr {key key' : Nat → Byte} {klen klen' : Nat}
    (h : ∀ i < 256, key (i % klen) = key' (i % klen')) : scheduled key klen = scheduled key' klen' := by
  rw [scheduled, scheduled, scheduleTable, scheduleTable, scheduleAfter_congr h]

/-- Settles O18: both sides leave the cipher state of their key, and every step uses a key byte with an index below
KLEN. -/
theorem schedDependsOnKeyOnly : Obligations.SchedDependsOnKeyOnly := by
  intro s u t v kaddr kaddr' klen hs hu hkey ht hv
  have hsteps : ∀ i < 256, keyAt s.mem kaddr (i % klen.toNat) = keyAt u.mem kaddr' (i % klen.toNat) :=
    fun i _ => hkey _ (Nat.mod_lt i hs.1)
  calc t.cipher = scheduled (keyAt s.mem kaddr) klen.toNat := (schedResult_of_exec hs ht).cipher
    _ = scheduled (keyAt u.mem kaddr') klen.toNat := scheduled_congr hsteps
    _ = v.cipher := (schedResult_of_exec hu hv).cipher.symm

end Sys2Proof.Machine
end

section
/-! PROOFS. The stream processor: one keystream step value by value, PROC of length zero and what a PROC within the
contract leaves (41_stream_process.md). -/

namespace Sys2Proof.Machine

/-! ### One keystream step (R122) -/

/-- The new CA is one further (R122). -/
theorem keystreamStep_ca_toNat (c : Cipher) : (keystreamStep c).cipher.ca.toNat = (c.ca.toNat + 1) % 256 :=
  BitVec.toNat_add _ _

/-- The new CB adds the entry at the new CA to the old CB (R122). -/
theorem keystreamStep_cb_toNat (c : Cipher) :
    (keystreamStep c).cipher.cb.toNat = ((keystreamStep c).t.toNat + c.cb.toNat) % 256 :=
  BitVec.toNat_add _ _

/-- The table after a step is the table before it with the entries at the two new cursors swapped (R122). -/
theorem keystreamStep_table (c : Cipher) :
    (keystreamStep c).cipher.S = c.S.exchange (keystreamStep c).cipher.ca (keystreamStep c).cipher.cb := rfl

/-- The keystream byte stands at `(t + u) mod 256` in the table after the swap (R122, R134). -/
theorem keystreamStep_ks {c : Cipher} {i : Byte}
    (h : i.toNat = ((keystreamStep c).t.toNat + (keystreamStep c).u.toNat) % 256) :
    (keystreamStep c).ks = (keystreamStep c).cipher.S.entry i := by
  obtain rfl : i = (keystreamStep c).t + (keystreamStep c).u :=
    BitVec.eq_of_toNat_eq (h.trans (BitVec.toNat_add _ _).symm)
  rfl

/-- Settles O20: the cursors by `keystreamStep_ca_toNat` and `keystreamStep_cb_toNat`, the table by the laws of a swap,
the keystream byte by `keystreamStep_ks`. -/
theorem keystreamStepValues : Obligations.KeystreamStepValues := by
  intro c
  refine ⟨keystreamStep_ca_toNat c, rfl, keystreamStep_cb_toNat c, rfl, ?_, ?_, fun i hca hcb => ?_,
    fun i hi => keystreamStep_ks hi⟩
  · rw [keystreamStep_table, Table.entry_exchange_left]
    rfl
  · rw [keystreamStep_table, Table.entry_exchange_right]
    rfl
  · rw [keystreamStep_table, Table.entry_exchange_of_ne _ hca hcb]

/-! ### PROC of length zero and on an invalid context (R124, R167) -/

/-- VALID is the first check, so an invalid context is refused whatever the operands are (R121, R165). -/
theorem exec_proc_invalid {s : State} (h : s.valid = false) (src dst len : Word) :
    exec (.proc src dst len) s = .next (s.raise .noState) :=
  exec_proc_refused (by rw [h]; rfl)

/-- Settles O24: `exec_proc_zero` on a valid context, `exec_proc_invalid` on an invalid one. -/
theorem zeroLengthProc : Obligations.ZeroLengthProc := by
  intro s src dst
  constructor
  · intro hv
    exact ⟨_, exec_proc_zero hv, by rw [respond_status, hv, responseWord_true_ok], rfl, rfl, rfl⟩
  · intro hv
    exact ⟨_, exec_proc_invalid hv src dst 0, statusCode_responseWord _ _⟩

/-! ### What a PROC within the contract leaves (R123, R127) -/

/-- A PROC within the contract, LEN = 0 included: the cipher state is LEN steps further and memory holds the combined
bytes (R124, R127). -/
theorem exec_proc_accepts {s : State} {src dst len : Word} (ha : s.AcceptsProc src dst len) :
    ∃ t, exec (.proc src dst len) s = .next t ∧ t.status = responseWord true .ok ∧ t.valid = s.valid ∧
      t.cfg = s.cfg ∧ t.cipher = s.cipher.advance len.toNat ∧
      t.mem = xorBytes s.cipher src.toNat dst.toNat len.toNat s.mem := by
  have hv := ha.1
  by_cases h0 : len = 0
  · subst h0
    exact ⟨_, exec_proc_zero hv, by rw [respond_status, hv], rfl, rfl, rfl, rfl⟩
  · obtain ⟨t, hs, ht⟩ := exec_proc_accepted ha h0
    exact ⟨t, hs, ht.status, by rw [ht.valid, hv], ht.cfg, ht.cipher, ht.mem⟩

/-- `n` keystream steps move CA by `n` modulo 256 (R122). -/
theorem Cipher.advance_ca_toNat (c : Cipher) (n : Nat) : (c.advance n).ca.toNat = (c.ca.toNat + n) % 256 := by
  simp [Cipher.advance_ca]

/-- An accepted PROC that moves at least one byte has disjoint or identical ranges (R64, R125). -/
theorem State.AcceptsProc.rangesApart {s : State} {src dst len : Word} (ha : s.AcceptsProc src dst len)
    (h0 : len ≠ 0) : RangesApart src.toNat dst.toNat len.toNat := by
  obtain ⟨-, -, hapart⟩ := ha.2.resolve_left h0
  exact (rangesOverlap_eq_false_iff ..).1 ((rangesOverlap_eq_false_iff_apart ..).2 hapart)

/-- Settles O27: what PROC leaves by `exec_proc_accepts`, the bytes by the laws of `xorBytes`; an output byte exists
only where LEN > 0, and there the ranges do not overlap. -/
theorem procTransformsBuffer : Obligations.ProcTransformsBuffer := by
  intro s src dst len hm ha
  obtain ⟨t, hs, hstatus, hvalid, hcfg, hcipher, hmem⟩ := exec_proc_accepts ha
  refine ⟨t, hs, hstatus, hvalid, hcfg, hcipher, ?_, fun p hp => ?_, fun a hout => ?_⟩
  · rw [hcipher, Cipher.advance_ca_toNat]
  · have h0 : len ≠ 0 := by rintro rfl; exact absurd hp (Nat.not_lt_zero p)
    rw [hmem, xorBytes_read_inside hm _ (ha.rangesApart h0) hp]
  · rw [hmem, xorBytes_read_outside _ _ _ _ _ hout]

end Sys2Proof.Machine
end

section
/-! PROOFS. Wide accesses: which widths the accesses of a PROC have, path by path (42_wide_word.md). -/

namespace Sys2Proof.Machine

/-! ### The path of a PROC (R141, R142) -/

theorem wideSelected_iff (cfg : Config) (src dst len : Word) :
    wideSelected cfg src dst len = true ↔ cfg.wideEn = true ∧ src.toNat % cfg.chunkBytes = 0 ∧
      dst.toNat % cfg.chunkBytes = 0 ∧ cfg.chunkBytes ≤ len.toNat := by
  simp [wideSelected, and_assoc]

theorem Config.chunkBytes_pos {cfg : Config} (h : cfg.legal = true) : 0 < cfg.chunkBytes := by
  obtain ⟨-, hW⟩ := (Config.legal_iff cfg).1 h
  omega

/-- The wide path moves at least one chunk. -/
theorem chunkCount_pos {cfg : Config} {src dst len : Word} (hc : cfg.legal = true)
    (h : wideSelected cfg src dst len = true) : 0 < chunkCount cfg src dst len := by
  obtain ⟨-, -, -, hlen⟩ := (wideSelected_iff ..).1 h
  rw [chunkCount, if_pos h]
  exact Nat.div_pos hlen (Config.chunkBytes_pos hc)

theorem chunkCount_byte {cfg : Config} {src dst len : Word} (h : wideSelected cfg src dst len = false) :
    chunkCount cfg src dst len = 0 := if_neg (by simp [h])

/-! ### The widths of its accesses (R59, R60) -/

theorem width_of_mem_transferTrace {src dst : Word} {n p : Nat} {a : Access} (h : a ∈ transferTrace src dst n p) :
    a.width = n := by
  simp only [transferTrace, List.mem_cons, List.not_mem_nil, or_false] at h
  rcases h with rfl | rfl <;> rfl

/-- The chunks come first, so the wide path begins with the two accesses of the chunk at offset 0. -/
theorem transferTrace_subset_procTrace {cfg : Config} {src dst len : Word}
    (h : 0 < chunkCount cfg src dst len) :
    transferTrace src dst cfg.chunkBytes 0 ⊆ procTrace cfg src dst len := fun _ ha =>
  List.mem_append_left _ (List.mem_flatMap.2 ⟨0, List.mem_range.2 h, by rwa [Nat.zero_mul]⟩)

theorem exists_mem_procTrace_wide {cfg : Config} {src dst len : Word} (hc : cfg.legal = true)
    (h : wideSelected cfg src dst len = true) : ∃ a ∈ procTrace cfg src dst len, a.width = cfg.chunkBytes :=
  ⟨_, transferTrace_subset_procTrace (chunkCount_pos hc h) List.mem_cons_self, rfl⟩

/-- The byte path has no chunks: its trace is that of the tail alone. -/
theorem procTrace_byte {cfg : Config} {src dst len : Word} (h : wideSelected cfg src dst len = false) :
    procTrace cfg src dst len = (List.range len.toNat).flatMap (transferTrace src dst 1) := by
  simp [procTrace, chunkCount_byte h]

theorem width_of_mem_procTrace_byte {cfg : Config} {src dst len : Word} (h : wideSelected cfg src dst len = false)
    {a : Access} (ha : a ∈ procTrace cfg src dst len) : a.width = 1 := by
  rw [procTrace_byte h] at ha
  obtain ⟨_, -, hp⟩ := List.mem_flatMap.1 ha
  exact width_of_mem_transferTrace hp

/-- Settles O36: the accesses made are those of `procTrace`, whose widths are known on either path. -/
theorem wideAccessIffSelected : Obligations.WideAccessIffSelected := by
  intro s src dst len hc ha h0
  obtain ⟨t, hs, ht⟩ := exec_proc_accepted ha h0
  refine ⟨t, _, hs, ht.bus, ?_⟩
  simp only [List.mem_reverse, ← wideSelected_iff]
  split
  next hsel => exact exists_mem_procTrace_wide hc hsel
  next hsel => exact fun _ => width_of_mem_procTrace_byte (Bool.eq_false_of_not_eq_true hsel)

end Sys2Proof.Machine
end

section
/-! PROOFS. Faults and responses: the checks of a command in their fixed order, the two ways a command can end, and what
a fault leaves as it was (60_exceptions.md). -/

namespace Sys2Proof.Machine

/-! ### The checks in their order (R165) -/

theorem rangeValid_eq_false_iff (cfg : Config) (a n : Word) :
    rangeValid cfg a n = false ↔ cfg.memBytes < a.toNat + n.toNat := by
  rw [← Bool.not_eq_true, rangeValid_iff, Nat.not_le]

theorem keyLengthValid_eq_false_iff (klen : Word) :
    keyLengthValid klen = false ↔ klen.toNat = 0 ∨ 256 < klen.toNat := by
  rw [← Bool.not_eq_true, keyLengthValid_iff]
  omega

theorem rangesOverlap_iff (src dst len : Word) :
    rangesOverlap src dst len = true ↔
      src.toNat ≠ dst.toNat ∧ src.toNat < dst.toNat + len.toNat ∧ dst.toNat < src.toNat + len.toNat := by
  rw [← Bool.not_eq_false, rangesOverlap_eq_false_iff, RangesApart]
  omega

/-- The checks of SCHED on the values of its operands: the key length, then the key's range (R101, R165). -/
theorem schedCheck_eq (cfg : Config) (kaddr klen : Word) :
    schedCheck cfg kaddr klen =
      if klen.toNat = 0 ∨ 256 < klen.toNat then some .invalidKeyLength
      else if cfg.memBytes < kaddr.toNat + klen.toNat then some .addrRange
      else none := by
  simp only [schedCheck, Bool.not_eq_true', keyLengthValid_eq_false_iff, rangeValid_eq_false_iff]

/-- The checks of PROC on the values of its operands: VALID, the zero length, both ranges, the overlap (R121, R165). -/
theorem procCheck_eq (cfg : Config) (valid : Bool) (src dst len : Word) :
    procCheck cfg valid src dst len =
      if valid = false then some .noState
      else if len.toNat = 0 then none
      else if cfg.memBytes < src.toNat + len.toNat ∨ cfg.memBytes < dst.toNat + len.toNat then some .addrRange
      else if src.toNat ≠ dst.toNat ∧ src.toNat < dst.toNat + len.toNat ∧ dst.toNat < src.toNat + len.toNat then
        some .overlap
      else none := by
  have hlen : len = 0 ↔ len.toNat = 0 := BitVec.toNat_inj.symm
  simp only [procCheck, Bool.not_eq_true', Bool.or_eq_true, rangeValid_eq_false_iff, rangesOverlap_iff, hlen]

/-- The fault the checks of a command raise, none for a command that is accepted (R165). -/
def commandCheck (i : Instr) (s : State) : Option Code :=
  match i with
  | .sched kaddr klen => schedCheck s.cfg kaddr klen
  | .proc src dst len => procCheck s.cfg s.valid src dst len

/-- The fault the checks of a descriptor raise, the decoder's first (R165). -/
def descriptorCheck (D : Descriptor) (s : State) : Option Code :=
  match decode D with
  | .legal i => commandCheck i s
  | .illegal _ => some .illegalCommand

/-- The checks of a descriptor on the values of its fields: the decoder's three grounds, then those of the command
(R86, R165). -/
theorem descriptorCheck_eq (D : Descriptor) (s : State) :
    descriptorCheck D s =
      if (rsv0Field D).toNat ≠ 0 ∨ ((opcField D).toNat ≠ 1 ∧ (opcField D).toNat ≠ 2) ∨
          ((opcField D).toNat = 1 ∧ (a2Field D).toNat ≠ 0) then some .illegalCommand
      else if (opcField D).toNat = 1 then schedCheck s.cfg (a1Field D) (nField D)
      else procCheck s.cfg s.valid (a1Field D) (a2Field D) (nField D) := by
  unfold descriptorCheck
  cases h : decode D with
  | illegal why =>
    have hbits := (decode_illegal_iff D).1 ⟨why, h⟩
    simp only [ne_eq, ← BitVec.toNat_inj] at hbits
    exact (if_pos (or_left_comm.1 hbits)).symm
  | legal i =>
    cases i with
    | sched kaddr klen =>
      obtain ⟨hrsv0, hopc, hrsv2, rfl, rfl⟩ := (decode_sched_iff D kaddr klen).1 h
      simp [hrsv0, hopc, hrsv2, commandCheck]
    | proc src dst len =>
      obtain ⟨hrsv0, hopc, rfl, rfl, rfl⟩ := (decode_proc_iff D src dst len).1 h
      simp [hrsv0, hopc, commandCheck]

/-! ### The two ways a command ends (R161, R162) -/

/-- How `t`, where a command issued in `s` completed, answers: OK on a valid context, delivered once, and the engine is
idle (R160, R161). -/
structure State.CompletesIn (s t : State) : Prop where
  valid : t.valid = true
  status : t.status = responseWord true .ok
  responses : t.responses = responseWord true .ok :: s.responses
  phase : t.seq.phase = .idle

/-- A command issued in `s` whose checks raise `fault` ends in one of two ways: it raises that fault and does nothing else,
or the checks pass and it completes. -/
def State.Answers (s : State) (fault : Option Code) (o : Host.Outcome State Fault Refusal) : Prop :=
  (∃ c, fault = some c ∧ o = .next (s.raise c)) ∨ (fault = none ∧ ∃ t, o = .next t ∧ s.CompletesIn t)

theorem exec_answers (i : Instr) (s : State) : s.Answers (commandCheck i s) (exec i s) := by
  cases i with
  | sched kaddr klen =>
    rcases execSched_cases s kaddr klen with ⟨c, hc, -, hs⟩ | ⟨ha, t, hs, ht⟩
    · exact .inl ⟨c, hc, hs⟩
    · exact .inr ⟨(schedCheck_none_iff_accepts ..).2 ha, t, hs, ht.valid, ht.status, ht.responses, ht.phase⟩
  | proc src dst len =>
    rcases execProc_cases s src dst len with ⟨c, hc, hs⟩ | ⟨ha, -, hs⟩ | ⟨ha, -, t, hs, ht⟩
    · exact .inl ⟨c, hc, hs⟩
    · exact .inr ⟨(procCheck_none_iff_accepts ..).2 ha, _, hs, ha.1, by rw [respond_status, ha.1],
        by rw [respond_responses, ha.1], rfl⟩
    · exact .inr ⟨(procCheck_none_iff_accepts ..).2 ha, t, hs, ht.valid, ht.status, ht.responses, ht.phase⟩

theorem runDescriptor_answers (D : Descriptor) (s : State) :
    s.Answers (descriptorCheck D s) (runDescriptor D s) := by
  unfold descriptorCheck
  rcases runDescriptor_cases D s with ⟨why, hD, hs⟩ | ⟨i, hD, hs⟩
  · exact .inl ⟨_, by rw [hD], hs⟩
  · rw [hs, hD]
    exact exec_answers i s

/-- The response carries the code of the fault, OK where there is none (R161, R162). -/
theorem State.Answers.code {s : State} {fault : Option Code} {o : Host.Outcome State Fault Refusal}
    (h : s.Answers fault o) : ∃ t, o = .next t ∧ statusCode t.status = (fault.getD .ok).bits := by
  rcases h with ⟨c, rfl, hs⟩ | ⟨rfl, t, hs, ht⟩
  · exact ⟨_, hs, statusCode_responseWord _ _⟩
  · exact ⟨t, hs, by rw [ht.status, statusCode_responseWord]; rfl⟩

/-! ### Which fault is raised (R165, R168, R169) -/

/-- Settles O12: the code is that of the descriptor's checks, which are the three chains of `descriptorCheck_eq`,
`schedCheck_eq` and `procCheck_eq`. -/
theorem checkOrder : Obligations.CheckOrder := by
  intro D s
  obtain ⟨t, hs, hcode⟩ := (runDescriptor_answers D s).code
  refine ⟨t, hs, ?_⟩
  rw [hcode, descriptorCheck_eq, schedCheck_eq, procCheck_eq]
  simp only [apply_ite (fun o : Option Code => (o.getD .ok).bits.toNat)]
  rfl

/-- A command for which the checks raise `c` answers the code of `c`. -/
theorem exec_statusCode_of_check {i : Instr} {s : State} {c : Code} (h : commandCheck i s = some c) :
    ∃ t, exec i s = .next t ∧ statusCode t.status = c.bits := by
  simpa only [h, Option.getD_some] using (exec_answers i s).code

/-- Settles O25: the range checks are reached because the checks before them pass; with LEN = 0 PROC ends before them. -/
theorem addrRangeRaised : Obligations.AddrRangeRaised := by
  intro s
  refine ⟨fun kaddr klen hmin hmax hrange => ?_, fun src dst len hv h0 hrange => ?_, fun src dst => ?_⟩
  · apply exec_statusCode_of_check (c := .addrRange)
    rw [commandCheck, schedCheck_eq, if_neg (by omega), if_pos hrange]
  · have hlen : len.toNat ≠ 0 := BitVec.toNat_inj.not.2 h0
    apply exec_statusCode_of_check (c := .addrRange)
    rw [commandCheck, procCheck_eq, if_neg (by simp [hv]), if_neg hlen, if_pos hrange]
  · cases hv : s.valid with
    | false => exact ⟨_, exec_proc_invalid hv src dst 0, by rw [raise_status, statusCode_responseWord]; decide⟩
    | true => exact ⟨_, exec_proc_zero hv, by rw [respond_status, statusCode_responseWord]; decide⟩

/-- Two ranges of the same length share a byte exactly when each begins before the other ends. -/
theorem exists_shared_byte_iff (a b n : Nat) :
    (∃ p < n, ∃ q < n, a + p = b + q) ↔ a < b + n ∧ b < a + n := by
  constructor
  · rintro ⟨p, hp, q, hq, h⟩
    omega
  · rintro ⟨ha, hb⟩
    exact ⟨b - a, by omega, a - b, by omega, by omega⟩

/-- The overlap check in the words of R169: the ranges share a byte without coinciding. -/
theorem rangesOverlap_iff_shared_byte (src dst len : Word) :
    rangesOverlap src dst len = true ↔
      src ≠ dst ∧ ∃ p < len.toNat, ∃ q < len.toNat, src.toNat + p = dst.toNat + q := by
  rw [rangesOverlap_iff, exists_shared_byte_iff, ne_eq, ne_eq, BitVec.toNat_inj]

/-- With both ranges in memory the overlap check alone decides a PROC of LEN > 0 on a valid context (R165). -/
theorem procCheck_of_ranges {s : State} {src dst len : Word} (hv : s.valid = true) (h0 : len ≠ 0)
    (hsrc : src.toNat + len.toNat ≤ s.cfg.memBytes) (hdst : dst.toNat + len.toNat ≤ s.cfg.memBytes) :
    procCheck s.cfg s.valid src dst len = if rangesOverlap src dst len = true then some .overlap else none := by
  have hlen : len.toNat ≠ 0 := BitVec.toNat_inj.not.2 h0
  rw [procCheck_eq, if_neg (by simp [hv]), if_neg hlen, if_neg (by omega)]
  simp only [rangesOverlap_iff]

/-- Settles O26: where the ranges lie in memory the code is 4 or 0 as the overlap check says; no check of SCHED is that
one. -/
theorem overlapRaised : Obligations.OverlapRaised := by
  intro s
  refine ⟨fun src dst len hv h0 hsrc hdst => ?_, fun kaddr klen => ?_⟩
  · obtain ⟨t, hs, hcode⟩ := (exec_answers (.proc src dst len) s).code
    rw [commandCheck, procCheck_of_ranges hv h0 hsrc hdst] at hcode
    have hapart : (src = dst ∨ ∀ p < len.toNat, ∀ q < len.toNat, src.toNat + p ≠ dst.toNat + q) ↔
        ¬ rangesOverlap src dst len = true := by
      rw [rangesOverlap_iff_shared_byte]
      push Not
      exact or_iff_not_imp_left
    refine ⟨t, hs, ?_⟩
    rw [← rangesOverlap_iff_shared_byte, hapart, hcode]
    cases rangesOverlap src dst len <;> decide
  · obtain ⟨t, hs, hcode⟩ := (exec_answers (.sched kaddr klen) s).code
    refine ⟨t, hs, ?_⟩
    rw [hcode, commandCheck, schedCheck_eq]
    split_ifs <;> decide

/-! ### What a fault leaves, and the one response (R161, R163) -/

/-- A fault leaves the context, the straps and memory as they were (R163). -/
theorem State.raise_sameContext (s : State) (c : Code) : (s.raise c).SameContext s := ⟨rfl, rfl, rfl, rfl⟩

/-- The result of a descriptor, legal or not, depends on the context, the straps and memory only (R25). -/
theorem State.SameContext.runDescriptor {s u : State} (h : s.SameContext u) (D : Descriptor) :
    ∃ t v, runDescriptor D s = .next t ∧ runDescriptor D u = .next v ∧ t.SameResult v := by
  unfold Machine.runDescriptor
  cases decode D with
  | illegal why => exact ⟨_, _, rfl, rfl, (h.respond .illegalCommand).1⟩
  | legal i =>
    obtain ⟨t, v, hs, hu, hresult, -⟩ := resultDependsOnContextOnly s u i h.cipher h.valid h.cfg h.mem
    exact ⟨t, v, hs, hu, hresult⟩

/-- Settles O45: a response other than OK is that of `State.raise`, which changes STATUS, the responses and PHASE only;
so the next command finds the same context. -/
theorem faultChangesOnlyStatus : Obligations.FaultChangesOnlyStatus := by
  intro s t D hrun hfault
  rcases runDescriptor_answers D s with ⟨c, -, hs⟩ | ⟨-, t', hs, ht⟩
  · obtain rfl : s.raise c = t := Host.Outcome.next.inj (hs.symm.trans hrun)
    exact ⟨rfl, rfl, rfl, rfl, rfl, rfl, (s.raise_sameContext c).runDescriptor⟩
  · obtain rfl : t' = t := Host.Outcome.next.inj (hs.symm.trans hrun)
    exact absurd (by rw [ht.status, statusCode_responseWord]; rfl) hfault

/-- Of the faults of the checks, NoState is raised on an invalid context only and Overlap on a valid one only (R162). -/
theorem descriptorCheck_some {D : Descriptor} {s : State} {c : Code} (h : descriptorCheck D s = some c) :
    c = .invalidKeyLength ∨ c = .addrRange ∨ c = .illegalCommand ∨ (c = .noState ∧ s.valid = false) ∨
      (c = .overlap ∧ s.valid = true) := by
  unfold descriptorCheck at h
  cases hD : decode D with
  | illegal why =>
    rw [hD] at h
    exact .inr (.inr (.inl (Option.some.inj h).symm))
  | legal i =>
    rw [hD] at h
    cases i with
    | sched kaddr klen =>
      have := schedCheck_some h
      tauto
    | proc src dst len =>
      have := procCheck_some h
      tauto

/-- Settles O46: a fault delivers the response word of its code, a completed command OK on a valid context. -/
theorem oneResponsePerCommand : Obligations.OneResponsePerCommand := by
  intro s D
  rcases runDescriptor_answers D s with ⟨c, hc, hs⟩ | ⟨-, t, hs, ht⟩
  · refine ⟨_, hs, rfl, ?_, statusValid_responseWord _ _, responseWord_lt _ _, rfl, ?_⟩
    · simpa using c.bits_le
    · rw [raise_status, statusCode_responseWord, raise_valid]
      rcases descriptorCheck_some hc with rfl | rfl | rfl | ⟨rfl, hv⟩ | ⟨rfl, hv⟩ <;> simp [Code.bits, *]
  · refine ⟨t, hs, by rw [ht.responses, ht.status], ?_⟩
    rw [ht.status, ht.valid]
    exact ⟨by decide, rfl, by decide, ht.phase, fun _ => rfl, fun h => absurd h (by decide)⟩

/-- Settles O23, by `exec_proc_invalid`. -/
theorem noStateRaised : Obligations.NoStateRaised := by
  intro s src dst len hv
  exact ⟨_, exec_proc_invalid hv src dst len, by rw [raise_status, hv]; rfl, rfl, hv, rfl, rfl⟩

end Sys2Proof.Machine
end

section
/-! PROOFS. Decoding and encoding are inverse to each other, and the decoder agrees with the opcode table and the
assembler (30_encoding.md). -/

namespace Sys2Proof.Machine

/-! ### Encoding and decoding (R87) -/

theorem decode_encode (i : Instr) : decode (encode i) = .legal i := by
  cases i with
  | sched kaddr klen =>
    obtain ⟨hrsv0, hopc⟩ := (descriptorWord_zero_iff (encode (.sched kaddr klen)) 1).1 (descriptorWord_zero ..)
    exact (decode_sched_iff ..).2
      ⟨hrsv0, hopc, descriptorWord_two .., descriptorWord_one .., descriptorWord_three ..⟩
  | proc src dst len =>
    obtain ⟨hrsv0, hopc⟩ := (descriptorWord_zero_iff (encode (.proc src dst len)) 2).1 (descriptorWord_zero ..)
    exact (decode_proc_iff ..).2
      ⟨hrsv0, hopc, descriptorWord_one .., descriptorWord_two .., descriptorWord_three ..⟩

/-- Settles O1, by `decode_encode`: the fields of an encoding are the words it is put together from. -/
theorem decodeOfEncode : Obligations.DecodeOfEncode := decode_encode

/-! ### The opcode table (R92) -/

/-- The row of SCHED fixes the fields that the decoder asks of a SCHED (R84, R86). -/
theorem decode_sched_iff_fits (D : Descriptor) :
    (∃ kaddr klen, decode D = .legal (.sched kaddr klen)) ↔ schedRow.fits D = true := by
  rw [schedRow_fits_iff, show (1 : Word) = (1 : BitVec 8).setWidth 32 from rfl, descriptorWord_zero_iff, and_assoc]
  simp [decode_sched_iff, a2Field]

/-- The row of PROC fixes the fields that the decoder asks of a PROC (R85, R86). -/
theorem decode_proc_iff_fits (D : Descriptor) :
    (∃ src dst len, decode D = .legal (.proc src dst len)) ↔ procRow.fits D = true := by
  rw [procRow_fits_iff, show (2 : Word) = (2 : BitVec 8).setWidth 32 from rfl, descriptorWord_zero_iff]
  simp [decode_proc_iff]

/-- A descriptor is illegal where no row of the opcode table matches it (R86, R92). -/
theorem decode_illegal_iff_fits (D : Descriptor) :
    (∃ why, decode D = .illegal why) ↔ schedRow.fits D = false ∧ procRow.fits D = false := by
  simp only [← Bool.not_eq_true, ← decode_sched_iff_fits, ← decode_proc_iff_fits]
  cases h : decode D with
  | illegal why => simp
  | legal i => cases i <;> simp

/-- The two rows fix DW0 to different values. -/
theorem not_fits_both (D : Descriptor) : ¬ (schedRow.fits D = true ∧ procRow.fits D = true) := by
  rintro ⟨hsched, hproc⟩
  have h1 := ((schedRow_fits_iff D).1 hsched).1
  have h2 := (procRow_fits_iff D).1 hproc
  exact absurd (h1.symm.trans h2) (by decide)

/-- Settles O4, row by row. -/
theorem decodeAgreesWithOpcodeTable : Obligations.DecodeAgreesWithOpcodeTable := fun D =>
  ⟨decode_sched_iff_fits D, decode_proc_iff_fits D, decode_illegal_iff_fits D, not_fits_both D⟩

/-- Settles O2: a legal descriptor matches its command's row, and a descriptor that matches is the encoding of its
operand words. -/
theorem encodeOfDecode : Obligations.EncodeOfDecode := by
  intro D i h
  cases i with
  | sched kaddr klen =>
    have hD := eq_encode_sched_of_fits ((decode_sched_iff_fits D).1 ⟨kaddr, klen, h⟩)
    obtain ⟨-, -, -, rfl, rfl⟩ := (decode_sched_iff D kaddr klen).1 h
    exact hD.symm
  | proc src dst len =>
    have hD := eq_encode_proc_of_fits ((decode_proc_iff_fits D).1 ⟨src, dst, len, h⟩)
    obtain ⟨-, -, rfl, rfl, rfl⟩ := (decode_proc_iff D src dst len).1 h
    exact hD.symm

/-- Settles O5: five closed descriptors, decoded. -/
theorem sampleDescriptors : Obligations.SampleDescriptors :=
  ⟨by decide, by decide, by decide, by decide, by decide⟩

/-! ### The assembler (R89) -/

theorem assemble_eq_none_iff (l : AsmLine) : assemble l = none ↔ ∃ n ∈ l.operands, 2 ^ 32 ≤ n := by
  simp [assemble, AsmLine.wellFormed]

/-- What the assembler emits decodes to the command of the line, all of whose operands fit (R89). -/
theorem decode_of_assemble {l : AsmLine} {D : Descriptor} (h : assemble l = some D) :
    decode D = .legal l.instr ∧ ∀ n ∈ l.operands, n < 2 ^ 32 := by
  unfold assemble at h
  split at h
  · next hwf =>
    obtain rfl := Option.some.inj h
    exact ⟨decode_encode _, by simpa [AsmLine.wellFormed] using hwf⟩
  · cases h

theorem toNat_ofNat_of_lt {n : Nat} (h : n < 2 ^ 32) : (BitVec.ofNat 32 n).toNat = n := by
  rw [BitVec.toNat_ofNat, Nat.mod_eq_of_lt h]

/-- Settles O7: rejection by `assemble_eq_none_iff`; what is emitted by `decode_of_assemble`, and an operand that fits
is the value of its field. -/
theorem assembledLineDecodes : Obligations.AssembledLineDecodes := by
  intro src dst len
  refine ⟨by simp [assemble_eq_none_iff, AsmLine.operands], fun D hD => ?_,
    by simp [assemble_eq_none_iff, AsmLine.operands], fun D hD => ?_⟩
  · obtain ⟨hdec, hfit⟩ := decode_of_assemble hD
    exact ⟨_, _, _, hdec, toNat_ofNat_of_lt (hfit src (by simp [AsmLine.operands])),
      toNat_ofNat_of_lt (hfit dst (by simp [AsmLine.operands])),
      toNat_ofNat_of_lt (hfit len (by simp [AsmLine.operands]))⟩
  · obtain ⟨hdec, hfit⟩ := decode_of_assemble hD
    exact ⟨_, _, hdec, toNat_ofNat_of_lt (hfit src (by simp [AsmLine.operands])),
      toNat_ofNat_of_lt (hfit len (by simp [AsmLine.operands]))⟩

end Sys2Proof.Machine
end

section
/-! PROOFS. Memory: a byte and a word read after they were written, the canonical form, and packed keystream words in
memory (20_memory.md, 42_wide_word.md). -/

namespace Sys2Proof.Machine

/-- Settles O58, by the laws of memory. -/
theorem memoryReadAfterWrite : Obligations.MemoryReadAfterWrite := fun _ a b hm =>
  ⟨Memory.read_write_same hm a b, fun _ hx => Memory.read_write_ne _ b hx, Memory.write_wf hm a b,
    fun _ hm' hread => Memory.ext_read hm hm' hread⟩

/-- The byte at `a + k` after a word write at `a`. -/
theorem Memory.read_writeWord_add {m : Memory} (h : m.wf) (order : ByteOrder) {W k : Nat} (hk : k < W) (a v : Nat) :
    (m.writeWord order W a v).read (a + k) = laneByte order W v k := by
  rw [Memory.read_writeWord h, if_pos (by omega), Nat.add_sub_cancel_left]

/-- The word read where a word was written is packed from the lanes of the word written. -/
theorem Memory.readWord_writeWord {m : Memory} (h : m.wf) (order : ByteOrder) {W v : Nat} (hv : v < 2 ^ (8 * W))
    (a : Nat) : (m.writeWord order W a v).readWord order W a = v :=
  calc (m.writeWord order W a v).readWord order W a
      = pack order W (laneByte order W v) := pack_congr order fun _ hk => Memory.read_writeWord_add h order hk a v
    _ = v := pack_laneByte order hv

/-- Settles O37: the word by `Memory.readWord_writeWord`, the bytes outside it by `Memory.read_writeWord`. -/
theorem wordReadAfterWrite : Obligations.WordReadAfterWrite := fun order W m a v hm hv =>
  ⟨Memory.readWord_writeWord hm order hv a, Memory.writeWord_wf hm order W a v,
    fun x hx => by rw [Memory.read_writeWord hm, if_neg (by omega)]⟩

/-- Settles O39: byte `a + k` is lane `k` of the word written, which is the byte packed there. -/
theorem packedWordLandsInOrder : Obligations.PackedWordLandsInOrder := fun order W _ _ a ks hm hk =>
  ⟨pack_lt order W ks, by rw [Memory.read_writeWord_add hm order hk, laneByte_pack order W ks _ hk]⟩

/-- The two byte orders number the lanes of a word from its two ends (R54). -/
theorem laneByte_of_ne {order order' : ByteOrder} (h : order ≠ order') {W k : Nat} (hk : k < W) (v : Nat) :
    laneByte order W v k = laneByte order' W v (W - 1 - k) := by
  have hshift : laneShift order W k = laneShift order' W (W - 1 - k) := by
    cases order <;> cases order'
    · exact absurd rfl h
    · simp only [laneShift]; omega
    · rfl
    · exact absurd rfl h
  simp only [laneByte, hshift]

/-- Settles O40: lane `k` in the order of the accesses is lane `W − 1 − k` in the order of the packing. -/
theorem mismatchedPackingReverses : Obligations.MismatchedPackingReverses := by
  intro order order' W k m a b ks hm hne hk
  have hdata : laneByte order W (m.readWord order W a) k = m.read (a + k) := laneByte_pack order W _ k hk
  have hks : laneByte order W (pack order' W ks) k = ks (W - 1 - k) := by
    rw [laneByte_of_ne hne hk, laneByte_pack order' W ks _ (by omega)]
  rw [Memory.read_writeWord_add hm order hk, laneByte_xor, hdata, hks]

end Sys2Proof.Machine
end

section
/-! PROOFS. What SCHED leaves unchanged, and the table it builds (40_key_schedule.md). -/

namespace Sys2Proof.Machine

/-- Settles O16: a refused SCHED is `State.raise`, an accepted one keeps what `SchedResult` says. -/
theorem schedFrame : Obligations.SchedFrame := by
  intro s t kaddr klen h
  rcases execSched_cases s kaddr klen with ⟨c, -, -, hs⟩ | ⟨ha, t', hs, ht⟩ <;>
    obtain rfl := Host.Outcome.next.inj (hs.symm.trans h)
  · exact ⟨fun _ => rfl, rfl, rfl, rfl, rfl, rfl, rfl, rfl, rfl, rfl, rfl, rfl, rfl, fun _ => ⟨rfl, rfl, rfl, rfl⟩⟩
  · exact ⟨fun a => by rw [ht.mem], ht.cfg, ht.port, ht.draws, ht.srcL, ht.dstL, ht.lenL, ht.pos, ht.t, ht.u, ht.ks,
      ht.kw, ht.iw, fun hrefused => absurd ha hrefused⟩

/-- Settles O17: the table is that of the reference, a permutation after any number of steps. -/
theorem schedTableIsPermutation : Obligations.SchedTableIsPermutation := by
  intro s t kaddr klen ha h
  rw [(schedResult_of_exec ha h).cipher]
  exact scheduleAfter_isPermutation _ _ _

/-- Settles O19, by `scheduled_congr`. -/
theorem periodicKeysAgree : Obligations.PeriodicKeysAgree := by
  intro s u t v kaddr klen kaddr' klen' hs hu hkey ht hv
  calc t.cipher = scheduled (keyAt s.mem kaddr) klen.toNat := (schedResult_of_exec hs ht).cipher
    _ = scheduled (keyAt u.mem kaddr') klen'.toNat := scheduled_congr hkey
    _ = v.cipher := (schedResult_of_exec hu hv).cipher.symm

end Sys2Proof.Machine
end

section
/-! PROOFS. The stream processor: the corners of the keystream step, what PROC leaves unchanged, and the laws of
streaming (41_stream_process.md). -/

namespace Sys2Proof.Machine

/-! ### The corners of the keystream step (R128, R134) -/

/-- Settles O21: with equal cursors the swap is that of an entry with itself; an index equal to a cursor reads the entry
the swap put there. -/
theorem keystreamStepCorners : Obligations.KeystreamStepCorners := by
  intro c
  refine ⟨fun heq => ?_, fun hca => ?_, fun hcb => ?_⟩
  · have htu : (keystreamStep c).t = (keystreamStep c).u := congrArg c.S.entry heq
    have htable : (keystreamStep c).cipher.S = c.S := by rw [keystreamStep_table, heq, Table.exchange_self]
    refine ⟨htu, htable, ?_⟩
    calc (keystreamStep c).ks
        = (keystreamStep c).cipher.S.entry ((keystreamStep c).t + (keystreamStep c).u) := rfl
      _ = c.S.entry ((keystreamStep c).t + (keystreamStep c).t) := by rw [htable, ← htu]
  · exact (congrArg (keystreamStep c).cipher.S.entry hca).trans (Table.entry_exchange_left ..)
  · exact (congrArg (keystreamStep c).cipher.S.entry hcb).trans (Table.entry_exchange_right ..)

/-! ### What PROC leaves unchanged -/

/-- Settles O28: a refused PROC is `State.raise`, one of LEN = 0 a response, and any other keeps what `ProcResult` says
and writes its output range only. -/
theorem procFrame : Obligations.ProcFrame := by
  intro s t src dst len h
  rcases execProc_cases s src dst len with ⟨c, -, hs⟩ | ⟨-, -, hs⟩ | ⟨ha, h0, t', hs, ht⟩ <;>
    obtain rfl := Host.Outcome.next.inj (hs.symm.trans h)
  · exact ⟨rfl, rfl, rfl, rfl, rfl, rfl, rfl, rfl, rfl, fun _ _ => rfl, fun _ => ⟨rfl, rfl⟩,
      fun _ => ⟨rfl, rfl, rfl, rfl⟩⟩
  · exact ⟨rfl, rfl, rfl, rfl, rfl, rfl, rfl, rfl, rfl, fun _ _ => rfl, fun _ => ⟨rfl, rfl⟩,
      fun _ => ⟨rfl, rfl, rfl, rfl⟩⟩
  · exact ⟨ht.valid.trans ha.1.symm, ht.cfg, ht.port, ht.draws, ht.i, ht.id1, ht.id2, ht.kaddrL, ht.klenL,
      fun a hout => by rw [ht.mem, xorBytes_read_outside _ _ _ _ _ hout], ht.words,
      fun hnone => hnone.elim (absurd ha) fun hzero => absurd hzero h0⟩

/-! ### What an accepted PROC leaves, LEN = 0 included -/

/-- An accepted PROC that answers `t`: `exec_proc_accepts` for a given next state. -/
theorem cipher_mem_of_exec_proc {s t : State} {src dst len : Word} (ha : s.AcceptsProc src dst len)
    (h : exec (.proc src dst len) s = .next t) :
    t.cipher = s.cipher.advance len.toNat ∧ t.mem = xorBytes s.cipher src.toNat dst.toNat len.toNat s.mem := by
  obtain ⟨t', hs, -, -, -, hcipher, hmem⟩ := exec_proc_accepts ha
  obtain rfl := Host.Outcome.next.inj (hs.symm.trans h)
  exact ⟨hcipher, hmem⟩

/-- Byte `p` of the output of an accepted PROC (R123). -/
theorem read_of_exec_proc {s t : State} {src dst len : Word} (hm : s.mem.wf) (ha : s.AcceptsProc src dst len)
    (h : exec (.proc src dst len) s = .next t) {p : Nat} (hp : p < len.toNat) :
    t.mem.read (dst.toNat + p) = s.mem.read (src.toNat + p) ^^^ s.cipher.keystream p := by
  have h0 : len ≠ 0 := by rintro rfl; exact absurd hp (Nat.not_lt_zero p)
  rw [(cipher_mem_of_exec_proc ha h).2, xorBytes_read_inside hm _ (ha.rangesApart h0) hp]

/-- Settles O32: LEN keystream steps from one cipher state. -/
theorem keystreamIgnoresData : Obligations.KeystreamIgnoresData := by
  intro s u t v src dst src' dst' len hcipher hs hu ht hv
  rw [(cipher_mem_of_exec_proc hs ht).1, (cipher_mem_of_exec_proc hu hv).1, hcipher]

/-! ### Splitting a PROC (R130) -/

/-- The contract on the values of the operands. -/
theorem acceptsProc_iff (s : State) (src dst len : Word) :
    s.AcceptsProc src dst len ↔ s.valid = true ∧ (len.toNat = 0 ∨ (src.toNat + len.toNat ≤ s.cfg.memBytes ∧
      dst.toNat + len.toNat ≤ s.cfg.memBytes ∧ RangesApart src.toNat dst.toNat len.toNat)) := by
  rw [State.AcceptsProc, ← BitVec.toNat_inj, ApartOrEqual, ← BitVec.toNat_inj]
  rfl

/-- The first part of an accepted PROC is accepted. -/
theorem State.AcceptsProc.first {s : State} {src dst len a : Word} (h : s.AcceptsProc src dst len)
    (ha : a.toNat ≤ len.toNat) : s.AcceptsProc src dst a := by
  rw [acceptsProc_iff] at *
  refine ⟨h.1, ?_⟩
  have hranges := h.2
  unfold RangesApart at *
  omega

/-- Where an accepted PROC of LEN > 0 has `b` bytes left after `a`, the addresses of the rest do not wrap. -/
theorem State.AcceptsProc.rest_toNat {s : State} {src dst len a b : Word} (hc : s.cfg.legal = true)
    (h : s.AcceptsProc src dst len) (hlen : len.toNat = a.toNat + b.toNat) (hb : b.toNat ≠ 0) :
    (src + a).toNat = src.toNat + a.toNat ∧ (dst + a).toNat = dst.toNat + a.toNat := by
  obtain ⟨⟨-, hmax⟩, -⟩ := (Config.legal_iff _).1 hc
  obtain ⟨-, hranges⟩ := (acceptsProc_iff ..).1 h
  obtain ⟨hsrc, hdst, -⟩ := hranges.resolve_left (by omega)
  simp only [BitVec.toNat_add]
  omega

/-- The rest of an accepted PROC is accepted by any engine with a valid context and the same straps. -/
theorem State.AcceptsProc.rest {s s' : State} {src dst len a b : Word} (hc : s.cfg.legal = true)
    (h : s.AcceptsProc src dst len) (hlen : len.toNat = a.toNat + b.toNat) (hvalid : s'.valid = s.valid)
    (hcfg : s'.cfg = s.cfg) : s'.AcceptsProc (src + a) (dst + a) b := by
  rw [acceptsProc_iff, hvalid, hcfg]
  obtain ⟨hv, hranges⟩ := (acceptsProc_iff ..).1 h
  refine ⟨hv, or_iff_not_imp_left.2 fun hb => ?_⟩
  obtain ⟨hsrc, hdst⟩ := h.rest_toNat hc hlen hb
  rw [hsrc, hdst]
  unfold RangesApart at *
  omega

/-- The bytes of the two parts are the bytes of the whole. -/
theorem xorBytes_split {s : State} {src dst len a b : Word} (hc : s.cfg.legal = true)
    (h : s.AcceptsProc src dst len) (hlen : len.toNat = a.toNat + b.toNat) :
    xorBytes (s.cipher.advance a.toNat) (src + a).toNat (dst + a).toNat b.toNat
        (xorBytes s.cipher src.toNat dst.toNat a.toNat s.mem) =
      xorBytes s.cipher src.toNat dst.toNat len.toNat s.mem := by
  rw [hlen, xorBytes_add]
  by_cases hb : b.toNat = 0
  · rw [hb]; rfl
  · obtain ⟨hsrc, hdst⟩ := h.rest_toNat hc hlen hb
    rw [hsrc, hdst]

/-- Settles O29: both parts are accepted, and their keystream steps and bytes add up to those of the whole. -/
theorem splitProcSameResult : Obligations.SplitProcSameResult := by
  intro s src dst a b len hc ha hlen
  obtain ⟨t, ht, hstatus, hvalid, -, hcipher, hmem⟩ := exec_proc_accepts ha
  obtain ⟨t1, ht1, -, hvalid1, hcfg1, hcipher1, hmem1⟩ := exec_proc_accepts (ha.first (a := a) (by omega))
  obtain ⟨t2, ht2, hstatus2, hvalid2, -, hcipher2, hmem2⟩ := exec_proc_accepts (ha.rest hc hlen hvalid1 hcfg1)
  refine ⟨t, t1, t2, ht, ht1, ht2, ?_, ?_, ?_, ?_⟩
  · rw [hcipher2, hcipher1, hcipher, hlen, Cipher.advance_add]
  · rw [hvalid2, hvalid1, hvalid]
  · rw [hstatus2, hstatus]
  · rw [hmem2, hmem1, hcipher1, hmem, xorBytes_split hc ha hlen]

/-- Settles O30: the second command goes on in the keystream where the first ended, and each output byte depends on its
input byte and its place in the stream only. -/
theorem streamingEquivalence : Obligations.StreamingEquivalence := by
  intro s u t u1 u2 src dst len src1 dst1 a src2 dst2 b hms hmu hcipher hlen hs ht hu hu1 hu' hu2 hin1 hin2
  obtain ⟨hc, -⟩ := cipher_mem_of_exec_proc hs ht
  obtain ⟨hc1, hm1⟩ := cipher_mem_of_exec_proc hu hu1
  obtain ⟨hc2, -⟩ := cipher_mem_of_exec_proc hu' hu2
  have hmu1 : u1.mem.wf := by rw [hm1]; exact xorBytes_wf hmu ..
  refine ⟨by rw [hc2, hc1, hc, hcipher, hlen, Cipher.advance_add], fun p hp => ?_, fun p hp => ?_⟩
  · rw [read_of_exec_proc hmu hu hu1 hp, read_of_exec_proc hms hs ht (by omega), hin1 p hp, hcipher]
  · rw [read_of_exec_proc hmu1 hu' hu2 hp, Nat.add_assoc, read_of_exec_proc hms hs ht (by omega), hin2 p hp, hc1,
      hcipher, Cipher.keystream_advance, Nat.add_assoc]

/-! ### Encrypting and decrypting (R131) -/

/-- A PROC with its output outside the key leaves the key as it was. -/
theorem keyAt_xorBytes (c : Cipher) (a b n : Nat) (m : Memory) {kaddr klen : Word}
    (h : kaddr.toNat + klen.toNat ≤ b ∨ b + n ≤ kaddr.toNat) {j : Nat} (hj : j < klen.toNat) :
    keyAt (xorBytes c a b n m) kaddr j = keyAt m kaddr j :=
  xorBytes_read_outside c a b n m (by omega)

/-- Settles O31: both PROCs start from the cipher state of the same key, so their keystreams cancel. -/
theorem selfInverse : Obligations.SelfInverse := by
  intro s kaddr klen A B C len hc hm hkey hA hB hC hAB hBC hapart
  obtain ⟨t1, ht1, r1⟩ := exec_sched_accepted hkey
  have ha1 : t1.AcceptsProc A B len := ⟨r1.valid, .inr (by rw [r1.cfg]; exact ⟨hA, hB, hAB⟩)⟩
  obtain ⟨t2, ht2, hstatus2, -, hcfg2, -, hmem2⟩ := exec_proc_accepts ha1
  rw [r1.cfg] at hcfg2
  have hkey2 : t2.AcceptsSched kaddr klen := by rwa [State.AcceptsSched, hcfg2]
  obtain ⟨t3, ht3, r3⟩ := exec_sched_accepted hkey2
  have ha3 : t3.AcceptsProc B C len := ⟨r3.valid, .inr (by rw [r3.cfg, hcfg2]; exact ⟨hB, hC, hBC⟩)⟩
  obtain ⟨t4, ht4, hstatus4, -, -, -, -⟩ := exec_proc_accepts ha3
  have hcipher : t3.cipher = t1.cipher := by
    rw [r3.cipher, r1.cipher]
    refine scheduled_congr fun i _ => ?_
    rw [hmem2, keyAt_xorBytes _ _ _ _ _ hapart (Nat.mod_lt i hkey.1), r1.mem]
  have hm1 : t1.mem.wf := by rw [r1.mem]; exact hm
  have hm3 : t3.mem.wf := by rw [r3.mem, hmem2]; exact xorBytes_wf hm1 ..
  refine ⟨t1, t2, t3, t4, ht1, ht2, ht3, ht4, hstatus2, hstatus4, fun p hp => ?_⟩
  rw [read_of_exec_proc hm3 ha3 ht4 hp, r3.mem, read_of_exec_proc hm1 ha1 ht2 hp, r1.mem, hcipher, BitVec.xor_assoc,
    BitVec.xor_self, BitVec.xor_zero]

end Sys2Proof.Machine
end

section
/-! PROOFS. What shows in the result of a command: no unspecified value, and none of the straps but MEM_BYTES
(10_state.md, 42_wide_word.md). -/

namespace Sys2Proof.Machine

/-! ### Unspecified values (R32, R39) -/

/-- The same response keeps two states alike. -/
theorem State.Alike.respond {s u : State} (h : s.Alike u) (c : Code) : (s.respond c).Alike (u.respond c) :=
  ⟨h.cfg, h.valid, by rw [respond_status, respond_status, h.valid], h.mem, h.bus,
    by rw [respond_responses, respond_responses, h.valid, h.responses], h.cipher⟩

/-- SCHED reads the straps and the key in memory; the cipher state it leaves is new (R101). -/
theorem State.Alike.exec_sched {s u : State} (h : s.Alike u) (kaddr klen : Word) :
    ∃ t v, exec (.sched kaddr klen) s = .next t ∧ exec (.sched kaddr klen) u = .next v ∧ t.Alike v := by
  rcases execSched_cases s kaddr klen with ⟨c, hc, -, hs⟩ | ⟨ha, t, hs, ht⟩
  · exact ⟨_, _, hs, exec_sched_refused (h.cfg ▸ hc), h.respond c⟩
  · obtain ⟨v, hu, hv⟩ := exec_sched_accepted (s := u) (by rwa [State.AcceptsSched, ← h.cfg])
    exact ⟨t, v, hs, hu, by rw [ht.cfg, hv.cfg, h.cfg], by rw [ht.valid, hv.valid], by rw [ht.status, hv.status],
      by rw [ht.mem, hv.mem, h.mem], by rw [ht.bus, hv.bus, h.bus], by rw [ht.responses, hv.responses, h.responses],
      fun _ => by rw [ht.cipher, hv.cipher, h.mem]⟩

/-- PROC reads the cipher state on a valid context only, where it is specified (R121, R124). -/
theorem State.Alike.exec_proc {s u : State} (h : s.Alike u) (src dst len : Word) :
    ∃ t v, exec (.proc src dst len) s = .next t ∧ exec (.proc src dst len) u = .next v ∧ t.Alike v := by
  rcases execProc_cases s src dst len with ⟨c, hc, hs⟩ | ⟨ha, rfl, hs⟩ | ⟨ha, h0, t, hs, ht⟩
  · exact ⟨_, _, hs, exec_proc_refused (h.cfg ▸ h.valid ▸ hc), h.respond c⟩
  · exact ⟨_, _, hs, exec_proc_zero (h.valid ▸ ha.1), h.respond .ok⟩
  · have hcipher := h.cipher ha.1
    obtain ⟨v, hu, hv⟩ := exec_proc_accepted (s := u) (by rwa [State.AcceptsProc, ← h.valid, ← h.cfg]) h0
    exact ⟨t, v, hs, hu, by rw [ht.cfg, hv.cfg, h.cfg], by rw [ht.valid, hv.valid], by rw [ht.status, hv.status],
      by rw [ht.mem, hv.mem, hcipher, h.mem], by rw [ht.bus, hv.bus, h.cfg, h.bus],
      by rw [ht.responses, hv.responses, h.responses], fun _ => by rw [ht.cipher, hv.cipher, hcipher]⟩

/-- Settles O34: an illegal descriptor is `State.raise`, a legal one its command. -/
theorem unspecifiedIsNeverRead : Obligations.UnspecifiedIsNeverRead := by
  intro s u D h
  unfold runDescriptor
  cases decode D with
  | illegal why => exact ⟨_, _, rfl, rfl, h.respond .illegalCommand⟩
  | legal i =>
    cases i with
    | sched kaddr klen => exact h.exec_sched kaddr klen
    | proc src dst len => exact h.exec_proc src dst len

/-! ### The straps (R150) -/

/-- The checks of SCHED read MEM_BYTES only. -/
theorem schedCheck_congr {c c' : Config} (h : c.memBytes = c'.memBytes) (kaddr klen : Word) :
    schedCheck c kaddr klen = schedCheck c' kaddr klen := by
  rw [schedCheck_eq, schedCheck_eq, h]

/-- The checks of PROC read MEM_BYTES and VALID only. -/
theorem procCheck_congr {c c' : Config} (h : c.memBytes = c'.memBytes) (valid : Bool) (src dst len : Word) :
    procCheck c valid src dst len = procCheck c' valid src dst len := by
  rw [procCheck_eq, procCheck_eq, h]

/-- SCHED under two settings of the straps with one MEM_BYTES. -/
theorem exec_sched_straps (s : State) (kaddr klen : Word) {c : Config} (h : c.memBytes = s.cfg.memBytes) :
    ∃ t v, exec (.sched kaddr klen) s = .next t ∧ exec (.sched kaddr klen) { s with cfg := c } = .next v ∧
      t.SameResult v := by
  rcases execSched_cases s kaddr klen with ⟨e, he, -, hs⟩ | ⟨ha, t, hs, ht⟩
  · exact ⟨_, _, hs, exec_sched_refused ((schedCheck_congr h ..).trans he), rfl, rfl, rfl, rfl⟩
  · obtain ⟨v, hu, hv⟩ := exec_sched_accepted (s := { s with cfg := c }) (kaddr := kaddr) (klen := klen)
      (by rw [State.AcceptsSched, h]; exact ha)
    exact ⟨t, v, hs, hu, ht.cipher.trans hv.cipher.symm, ht.valid.trans hv.valid.symm,
      ht.status.trans hv.status.symm, ht.mem.trans hv.mem.symm⟩

/-- PROC under two settings of the straps with one MEM_BYTES: no strap shows in the bytes of `xorBytes`. -/
theorem exec_proc_straps (s : State) (src dst len : Word) {c : Config} (h : c.memBytes = s.cfg.memBytes) :
    ∃ t v, exec (.proc src dst len) s = .next t ∧ exec (.proc src dst len) { s with cfg := c } = .next v ∧
      t.SameResult v := by
  rcases execProc_cases s src dst len with ⟨e, he, hs⟩ | ⟨ha, rfl, hs⟩ | ⟨ha, h0, t, hs, ht⟩
  · exact ⟨_, _, hs, exec_proc_refused ((procCheck_congr h ..).trans he), rfl, rfl, rfl, rfl⟩
  · exact ⟨_, _, hs, exec_proc_zero (s := { s with cfg := c }) ha.1, rfl, rfl, rfl, rfl⟩
  · obtain ⟨v, hu, hv⟩ := exec_proc_accepted (s := { s with cfg := c }) (src := src) (dst := dst) (len := len)
      (by rw [State.AcceptsProc, h]; exact ha) h0
    exact ⟨t, v, hs, hu, ht.cipher.trans hv.cipher.symm, ht.valid.trans hv.valid.symm,
      ht.status.trans hv.status.symm, ht.mem.trans hv.mem.symm⟩

/-- Settles O35, command by command. -/
theorem widePathEqualsBytePath : Obligations.WidePathEqualsBytePath := by
  intro s i c _ _ h
  cases i with
  | sched kaddr klen => exact exec_sched_straps s kaddr klen h
  | proc src dst len => exact exec_proc_straps s src dst len h

end Sys2Proof.Machine
end

section
/-! PROOFS. The accesses of a command: where they lie, their widths and how many there are (20_memory.md,
70_reset_and_hazards.md). -/

namespace Sys2Proof.Machine

/-! ### What an access of a trace is (R51, R60) -/

theorem mem_transferTrace {src dst : Word} {n p : Nat} {x : Access} (h : x ∈ transferTrace src dst n p) :
    (x.kind = .read ∧ x.addr = src.toNat + p ∨ x.kind = .write ∧ x.addr = dst.toNat + p) ∧ x.width = n := by
  refine ⟨?_, width_of_mem_transferTrace h⟩
  rcases List.mem_pair.1 h with rfl | rfl
  · exact .inl ⟨rfl, rfl⟩
  · exact .inr ⟨rfl, rfl⟩

theorem mem_schedTrace {kaddr klen : Word} {x : Access} (h : x ∈ schedTrace kaddr klen) :
    ∃ i, x = { kind := .read, addr := kaddr.toNat + i % klen.toNat, width := 1 } := by
  obtain ⟨i, -, rfl⟩ := List.mem_map.1 h
  exact ⟨i, rfl⟩

/-- An access of a PROC belongs to the transfer of a chunk or of a byte of the tail, whose bytes lie below LEN
(R121, R142). -/
theorem mem_procTrace {cfg : Config} {src dst len : Word} {x : Access} (h : x ∈ procTrace cfg src dst len) :
    (∃ c, wideSelected cfg src dst len = true ∧ x ∈ transferTrace src dst cfg.chunkBytes (c * cfg.chunkBytes) ∧
      c * cfg.chunkBytes + cfg.chunkBytes ≤ len.toNat) ∨
    ∃ p < len.toNat, x ∈ transferTrace src dst 1 p := by
  have hle := chunkCount_mul_le cfg src dst len
  rcases List.mem_append.1 h with h | h
  · obtain ⟨c, hc, hx⟩ := List.mem_flatMap.1 h
    have hc := List.mem_range.1 hc
    refine .inl ⟨c, ?_, hx, ?_⟩
    · by_contra hsel
      rw [chunkCount_byte (Bool.eq_false_of_not_eq_true hsel)] at hc
      exact absurd hc (Nat.not_lt_zero c)
    · rw [← Nat.succ_mul]
      exact (Nat.mul_le_mul_right _ hc).trans hle
  · obtain ⟨j, hj, hx⟩ := List.mem_flatMap.1 h
    have hj := List.mem_range.1 hj
    exact .inr ⟨_, by omega, hx⟩

/-- A SCHED that makes an access was accepted, and the access is of its trace. -/
theorem mem_commandTrace_sched {s : State} {kaddr klen : Word} {x : Access}
    (h : x ∈ commandTrace (.sched kaddr klen) s) : s.AcceptsSched kaddr klen ∧ x ∈ schedTrace kaddr klen := by
  cases hc : schedCheck s.cfg kaddr klen with
  | some c => simp [commandTrace_sched_refused hc] at h
  | none =>
    have ha := (schedCheck_none_iff_accepts ..).1 hc
    exact ⟨ha, by rwa [commandTrace_sched_accepted ha] at h⟩

/-- The accesses of a PROC are of its trace. -/
theorem mem_commandTrace_proc {s : State} {src dst len : Word} {x : Access}
    (h : x ∈ commandTrace (.proc src dst len) s) : x ∈ procTrace s.cfg src dst len := by
  by_cases hc : procCheck s.cfg s.valid src dst len = none ∧ len ≠ 0
  · rwa [commandTrace, if_pos hc] at h
  · rw [commandTrace, if_neg hc] at h
    exact absurd h List.not_mem_nil

/-! ### Where the accesses lie (R51, R57, R59) -/

theorem range_of_mem_procTrace {cfg : Config} {src dst len : Word} {x : Access} (h : x ∈ procTrace cfg src dst len) :
    (x.kind = .read ∧ src.toNat ≤ x.addr ∧ x.addr + x.width ≤ src.toNat + len.toNat) ∨
    (x.kind = .write ∧ dst.toNat ≤ x.addr ∧ x.addr + x.width ≤ dst.toNat + len.toNat) := by
  rcases mem_procTrace h with ⟨c, -, hx, hle⟩ | ⟨p, hp, hx⟩ <;>
    obtain ⟨⟨hk, ha⟩ | ⟨hk, ha⟩, hw⟩ := mem_transferTrace hx
  · exact .inl ⟨hk, by omega, by omega⟩
  · exact .inr ⟨hk, by omega, by omega⟩
  · exact .inl ⟨hk, by omega, by omega⟩
  · exact .inr ⟨hk, by omega, by omega⟩

/-- Settles O42: the accesses are those of `commandTrace` by `exec_bus`; a key byte has an index below KLEN, and the
bytes of a transfer an offset below LEN. -/
theorem accessesStayInRange : Obligations.AccessesStayInRange := by
  intro s i _
  obtain ⟨t, hs, ht⟩ := exec_bus i s
  refine ⟨t, _, hs, ht, fun x hx => ?_⟩
  rw [List.mem_reverse] at hx
  cases i with
  | sched kaddr klen =>
    obtain ⟨⟨hmin, -, -⟩, hx⟩ := mem_commandTrace_sched hx
    obtain ⟨j, rfl⟩ := mem_schedTrace hx
    have := Nat.mod_lt j hmin
    exact ⟨rfl, Nat.le_add_right _ _, by simp only; omega⟩
  | proc src dst len => exact range_of_mem_procTrace (mem_commandTrace_proc hx)

/-- The accesses of a chunk are aligned because both addresses and every chunk's offset are multiples of `W`
(R59, R141). -/
theorem width_of_mem_procTrace {cfg : Config} {src dst len : Word} {x : Access} (h : x ∈ procTrace cfg src dst len) :
    x.width = 1 ∨ (x.width = cfg.chunkBytes ∧ cfg.wideEn = true ∧ x.addr % cfg.chunkBytes = 0) := by
  rcases mem_procTrace h with ⟨c, hsel, hx, -⟩ | ⟨p, -, hx⟩
  · obtain ⟨hwide, hsrc, hdst, -⟩ := (wideSelected_iff ..).1 hsel
    obtain ⟨haddr, hw⟩ := mem_transferTrace hx
    refine .inr ⟨hw, hwide, ?_⟩
    rcases haddr with ⟨-, ha⟩ | ⟨-, ha⟩
    · rw [ha, Nat.add_mul_mod_self_right, hsrc]
    · rw [ha, Nat.add_mul_mod_self_right, hdst]
  · exact .inl (mem_transferTrace hx).2

/-- Settles O43, command by command: SCHED reads single bytes, PROC by `width_of_mem_procTrace`. -/
theorem wordAccessesAligned : Obligations.WordAccessesAligned := by
  intro s i _
  obtain ⟨t, hs, ht⟩ := exec_bus i s
  refine ⟨t, _, hs, ht, fun x hx => ?_⟩
  rw [List.mem_reverse] at hx
  cases i with
  | sched kaddr klen =>
    obtain ⟨j, rfl⟩ := mem_schedTrace (mem_commandTrace_sched hx).2
    exact .inl rfl
  | proc src dst len =>
    rcases width_of_mem_procTrace (mem_commandTrace_proc hx) with hw | ⟨hw, hwide, haligned⟩
    · exact .inl hw
    · exact .inr ⟨hw, hwide, haligned, src, dst, len, rfl⟩

/-! ### How many accesses there are (R201) -/

/-- The accesses of one direction and one width in a trace. -/
def countAccesses (kind : AccessKind) (w : Nat) (tr : List Access) : Nat :=
  tr.countP fun x => x.kind = kind && x.width = w

theorem countAccesses_append (kind : AccessKind) (w : Nat) (tr tr' : List Access) :
    countAccesses kind w (tr ++ tr') = countAccesses kind w tr + countAccesses kind w tr' := List.countP_append

/-- One transfer makes one access in each direction, of its own width. -/
theorem countAccesses_transferTrace (kind : AccessKind) (w : Nat) (src dst : Word) (n p : Nat) :
    countAccesses kind w (transferTrace src dst n p) = if n = w then 1 else 0 := by
  by_cases h : n = w <;> cases kind <;> simp [countAccesses, transferTrace, h]

/-- `k` transfers of `n` bytes make `k` accesses of that width in each direction. -/
theorem countAccesses_transfers (kind : AccessKind) (w : Nat) (src dst : Word) (n k : Nat) (offset : Nat → Nat) :
    countAccesses kind w ((List.range k).flatMap fun j => transferTrace src dst n (offset j)) =
      if n = w then k else 0 := by
  induction k with
  | zero => simp [countAccesses]
  | succ k ih =>
    rw [List.range_succ, List.flatMap_append, countAccesses_append, ih, List.flatMap_singleton, countAccesses_transferTrace]
    split <;> rfl

/-- The accesses of a PROC by direction and width: its chunks, then its tail (R121, R142). -/
theorem countAccesses_procTrace (kind : AccessKind) (w : Nat) (cfg : Config) (src dst len : Word) :
    countAccesses kind w (procTrace cfg src dst len) =
      (if cfg.chunkBytes = w then chunkCount cfg src dst len else 0) +
        if 1 = w then len.toNat - chunkCount cfg src dst len * cfg.chunkBytes else 0 := by
  rw [← countAccesses_transfers kind w src dst cfg.chunkBytes _ fun c => c * cfg.chunkBytes,
    ← countAccesses_transfers kind w src dst 1 _ fun j => chunkCount cfg src dst len * cfg.chunkBytes + j]
  exact countAccesses_append ..

theorem Config.chunkBytes_ne_one {cfg : Config} (h : cfg.legal = true) : cfg.chunkBytes ≠ 1 := by
  obtain ⟨-, hW⟩ := (Config.legal_iff cfg).1 h
  omega

theorem countAccesses_wide (kind : AccessKind) {cfg : Config} {src dst len : Word} (hc : cfg.legal = true)
    (hsel : wideSelected cfg src dst len = true) :
    countAccesses kind cfg.chunkBytes (procTrace cfg src dst len) = len.toNat / cfg.chunkBytes ∧
      countAccesses kind 1 (procTrace cfg src dst len) = len.toNat % cfg.chunkBytes := by
  have hW := Config.chunkBytes_ne_one hc
  have hdiv : len.toNat - len.toNat / cfg.chunkBytes * cfg.chunkBytes = len.toNat % cfg.chunkBytes := by
    rw [Nat.mul_comm, ← Nat.mod_eq_sub]
  simp [countAccesses_procTrace, chunkCount, hsel, hW, hW.symm, hdiv]

theorem countAccesses_byte (kind : AccessKind) {cfg : Config} {src dst len : Word}
    (hsel : wideSelected cfg src dst len = false) :
    countAccesses kind 1 (procTrace cfg src dst len) = len.toNat := by
  simp [countAccesses_procTrace, chunkCount_byte hsel]

theorem length_procTrace_byte {cfg : Config} {src dst len : Word} (hsel : wideSelected cfg src dst len = false) :
    (procTrace cfg src dst len).length = 2 * len.toNat := by
  simp [procTrace_byte hsel, transferTrace, Nat.mul_comm]

/-- A SCHED outside the contract makes no access. -/
theorem commandTrace_sched_of_not_accepts {s : State} {kaddr klen : Word} (h : ¬ s.AcceptsSched kaddr klen) :
    commandTrace (.sched kaddr klen) s = [] :=
  if_neg (mt (schedCheck_none_iff_accepts ..).1 h)

/-- A PROC outside the contract or of LEN = 0 makes no access. -/
theorem commandTrace_proc_of_not_accepts {s : State} {src dst len : Word}
    (h : ¬ s.AcceptsProc src dst len ∨ len = 0) : commandTrace (.proc src dst len) s = [] := by
  refine if_neg fun hc => h.elim (fun hn => hn ?_) hc.2
  exact (procCheck_none_iff_accepts ..).1 hc.1

/-- A command with an empty trace leaves the memory port as it was. -/
theorem exec_bus_of_no_trace {i : Instr} {s : State} (h : commandTrace i s = []) :
    ∃ t, exec i s = .next t ∧ t.bus = s.bus := by
  obtain ⟨t, hs, ht⟩ := exec_bus i s
  exact ⟨t, hs, by rw [ht, h]; rfl⟩

/-- Settles O44, row by row of the table of R201. -/
theorem accessCounts : Obligations.AccessCounts := by
  intro s hc
  refine ⟨fun kaddr klen ha => ?_, fun src dst len ha h0 => ?_,
    fun _ _ hn => exec_bus_of_no_trace (commandTrace_sched_of_not_accepts hn),
    fun _ _ _ hn => exec_bus_of_no_trace (commandTrace_proc_of_not_accepts hn)⟩
  · obtain ⟨t, hs, ht⟩ := exec_sched_accepted ha
    refine ⟨t, _, hs, ht.bus, by simp [schedTrace], fun x hx => ?_⟩
    obtain ⟨j, rfl⟩ := mem_schedTrace (List.mem_reverse.1 hx)
    exact ⟨rfl, rfl⟩
  · obtain ⟨t, hs, ht⟩ := exec_proc_accepted ha h0
    refine ⟨t, _, hs, ht.bus, fun kind => ?_⟩
    simp only [List.countP_reverse, List.length_reverse]
    cases hsel : wideSelected s.cfg src dst len with
    | true => exact countAccesses_wide kind hc hsel
    | false => exact ⟨countAccesses_byte kind hsel, length_procTrace_byte hsel⟩

end Sys2Proof.Machine
end

section
/-! PROOFS. The response words that occur, and what changes VALID (60_exceptions.md, 10_state.md). -/

namespace Sys2Proof.Machine

/-! ### Response words (R162) -/

/-- Settles O47: the response word of the fault raised, or OK on a valid context. -/
theorem possibleResponses : Obligations.PossibleResponses := by
  intro s t
  refine ⟨fun kaddr klen h => ?_, fun src dst len h => ?_, fun D why hD h => ?_⟩
  · rcases execSched_cases s kaddr klen with ⟨c, -, hcode, hs⟩ | ⟨-, t', hs, ht⟩ <;>
      obtain rfl := Host.Outcome.next.inj (hs.symm.trans h)
    · rw [raise_status]
      rcases hcode with rfl | rfl <;> cases s.valid <;> decide
    · exact .inl ht.status
  · rcases execProc_cases s src dst len with ⟨c, hc, hs⟩ | ⟨ha, -, hs⟩ | ⟨ha, -, t', hs, ht⟩ <;>
      obtain rfl := Host.Outcome.next.inj (hs.symm.trans h)
    · rw [raise_status]
      rcases procCheck_some hc with ⟨hv, rfl⟩ | ⟨hv, rfl | rfl⟩ <;> rw [hv] <;> decide
    · exact .inr ⟨ha.1, .inl (by rw [respond_status, ha.1]; rfl)⟩
    · exact .inr ⟨ha.1, .inl ht.status⟩
  · obtain rfl := Host.Outcome.next.inj ((runDescriptor_illegal hD s).symm.trans h)
    rw [raise_status]
    cases s.valid <;> decide

/-! ### What changes VALID (R26) -/

/-- A micro-step changes VALID only where it completes a SCHED, which sets it (R104). -/
theorem tick_valid (s : State) :
    (tick s).valid = s.valid ∨ (s.seq.phase = .ksa ∧ (tick s).valid = true ∧ (tick s).status = 0x10) := by
  unfold tick
  split
  · exact .inl rfl
  · next hp =>
    unfold tickKsa
    simp only
    split
    · exact .inr ⟨hp, rfl, finishSched_status _⟩
    · exact .inl rfl
  · obtain ⟨-, hchunk, -⟩ := chunkStep_frame s
    unfold tickWide
    simp only
    split
    · split <;> exact .inl hchunk
    · exact .inl hchunk
  · unfold tickByte
    simp only
    split <;> exact .inl rfl

/-- A descriptor changes VALID only where it is an accepted SCHED, which sets it (R104). -/
theorem runDescriptor_valid {s t : State} {D : Descriptor} (h : runDescriptor D s = .next t) :
    t.valid = s.valid ∨ (t.valid = true ∧ t.status = 0x10 ∧
      ∃ kaddr klen, decode D = .legal (.sched kaddr klen) ∧ s.AcceptsSched kaddr klen) := by
  rcases runDescriptor_cases D s with ⟨why, -, hs⟩ | ⟨i, hD, hs⟩
  · obtain rfl := Host.Outcome.next.inj (hs.symm.trans h)
    exact .inl rfl
  · rw [hs] at h
    cases i with
    | sched kaddr klen =>
      rcases execSched_cases s kaddr klen with ⟨c, -, -, hs⟩ | ⟨ha, t', hs, ht⟩ <;>
        obtain rfl := Host.Outcome.next.inj (hs.symm.trans h)
      · exact .inl rfl
      · exact .inr ⟨ht.valid, ht.status, kaddr, klen, hD, ha⟩
    | proc src dst len =>
      obtain ⟨hv, -⟩ := procFrame s t src dst len h
      exact .inl hv

/-- A step keeps VALID, or clears it as a reset, or sets it as a successful SCHED. -/
theorem step_valid {s t : State} (h : step s = .next t) :
    t.valid = s.valid ∨
    (t.valid = false ∧ s.seq.phase = .idle ∧
      ((∃ rest, s.port = .reset :: rest) ∨ ∃ D n rest, s.port = .commandReset D n :: rest)) ∨
    (t.valid = true ∧ t.status = 0x10 ∧
      (s.seq.phase = .ksa ∨ (s.seq.phase = .idle ∧ ∃ D rest kaddr klen, s.port = .command D :: rest ∧
        decode D = .legal (.sched kaddr klen) ∧ s.AcceptsSched kaddr klen))) := by
  rcases step_cases h with ⟨-, rfl⟩ | ⟨hp, ⟨-, rfl⟩ | ⟨rest, hevent⟩⟩
  · rcases tick_valid s with hv | ⟨hp, hv, hst⟩
    · exact .inl hv
    · exact .inr (.inr ⟨hv, hst, .inl hp⟩)
  · exact .inl rfl
  · rcases hevent with ⟨D, hq, hs⟩ | ⟨a, b, -, -, rfl⟩ | ⟨hq, rfl⟩ | ⟨D, n, hq, rfl⟩
    · rcases runDescriptor_valid hs with hv | ⟨hv, hst, kaddr, klen, hD, ha⟩
      · exact .inl hv
      · exact .inr (.inr ⟨hv, hst, .inr ⟨hp, D, rest, kaddr, klen, hq, hD, ha⟩⟩)
    · exact .inl rfl
    · exact .inr (.inl ⟨rfl, hp, .inl ⟨rest, hq⟩⟩)
    · exact .inr (.inl ⟨rfl, hp, .inr ⟨D, n, rest, hq⟩⟩)

/-- Settles O50, by `step_valid`. -/
theorem validChangesOnlyBySchedOrReset : Obligations.ValidChangesOnlyBySchedOrReset := by
  intro s t h
  rcases step_valid h with hv | ⟨hv, hreset⟩ | ⟨hv, hsched⟩
  · exact ⟨fun h1 h0 => by simp [hv, h1] at h0, fun h0 h1 => by simp [hv, h0] at h1⟩
  · exact ⟨fun _ _ => hreset, fun _ h1 => by simp [hv] at h1⟩
  · exact ⟨fun _ h0 => by simp [hv] at h0, fun _ _ => hsched⟩

end Sys2Proof.Machine
end

section
/-! PROOFS. The phase machine: it gives the state of the command-level meaning, and it becomes idle
(10_state.md, 70_reset_and_hazards.md). -/

namespace Sys2Proof.Machine

/-! ### A SCHED in the phase machine (R34, R37) -/

theorem exec_sched_eq_ticks {s : State} {kaddr klen : Word} (h : schedCheck s.cfg kaddr klen = none) :
    exec (.sched kaddr klen) s = .next (tick^[256] (latchSched kaddr klen s)) := by
  obtain ⟨hmin, hmax, -⟩ := (schedCheck_none_iff ..).1 h
  obtain ⟨n, hn⟩ : ∃ n, n + 1 = 256 := ⟨255, rfl⟩
  rw [← hn, ticks_ksa_last hmin hmax hn, hn]
  exact execSched_eq h

/-! ### A PROC in the phase machine (R35, R36, R37) -/

theorem inputAddr_latchProc (src dst len : Word) (s : State) : inputAddr (latchProc src dst len s) = src.toNat := by
  simp [inputAddr]

theorem outputAddr_latchProc (src dst len : Word) (s : State) : outputAddr (latchProc src dst len s) = dst.toNat := by
  simp [outputAddr]

/-- Ranges that do not overlap do not overlap in their first bytes. -/
theorem RangesApart.mono {a b n k : Nat} (h : RangesApart a b n) (hk : k ≤ n) : RangesApart a b k := by
  unfold RangesApart at *
  omega

/-- The chunks of an accepted PROC, as many as `n` says (R36, R60). -/
theorem chunkSteps_latchProc {s : State} {src dst len : Word} (hapart : RangesApart src.toNat dst.toNat len.toNat)
    {n : Nat} (hn : n ≤ chunkCount s.cfg src dst len) :
    ∃ tr, TransferState (latchProc src dst len s) (n * s.cfg.chunkBytes) tr
      (chunkStep^[n] (latchProc src dst len s)) := by
  have hle : n * s.cfg.chunkBytes ≤ len.toNat :=
    (Nat.mul_le_mul_right _ hn).trans (chunkCount_mul_le s.cfg src dst len)
  have hlen := len.isLt
  refine ⟨_, chunkSteps_transfer (s := latchProc src dst len s) n (by simp; omega) ?_⟩
  rw [inputAddr_latchProc, outputAddr_latchProc]
  exact hapart.mono hle

/-- The chunks of the wide path, all of them: they complete the command or leave it in BYTE (R33). -/
theorem ticks_wide_chunks {s : State} {src dst len : Word} (hc : s.cfg.legal = true)
    (hapart : RangesApart src.toNat dst.toNat len.toNat) (hsel : wideSelected s.cfg src dst len = true) :
    tick^[chunkCount s.cfg src dst len] (latchProc src dst len s) =
      if chunkCount s.cfg src dst len * s.cfg.chunkBytes = len.toNat then
        (chunkStep^[chunkCount s.cfg src dst len] (latchProc src dst len s)).respond .ok
      else (chunkStep^[chunkCount s.cfg src dst len] (latchProc src dst len s)).enterPhase .byte :=
  ticks_wide_last (s := latchProc src dst len s) (by simp [startPhase, hsel]) rfl
    (by rwa [inputAddr_latchProc, outputAddr_latchProc]) (Config.chunkBytes_pos hc) (chunkCount_pos hc hsel)
    (by simp [chunkCount, hsel])

/-- A PROC that has bytes left after its chunks is in BYTE, the registers being those the chunks left (R33, R142). -/
theorem ticks_chunks {s : State} {src dst len : Word} (hc : s.cfg.legal = true)
    (hapart : RangesApart src.toNat dst.toNat len.toNat)
    (hlt : chunkCount s.cfg src dst len * s.cfg.chunkBytes < len.toNat) :
    tick^[chunkCount s.cfg src dst len] (latchProc src dst len s) =
      (chunkStep^[chunkCount s.cfg src dst len] (latchProc src dst len s)).enterPhase .byte := by
  cases hsel : wideSelected s.cfg src dst len with
  | false =>
    rw [chunkCount_byte hsel]
    simp [State.enterPhase, latchProc, startPhase, hsel]
  | true => rw [ticks_wide_chunks hc hapart hsel, if_neg hlt.ne]

/-- The chunks of a PROC without a tail complete it (R33). -/
theorem ticks_chunks_last {s : State} {src dst len : Word} (hc : s.cfg.legal = true) (h0 : len ≠ 0)
    (hapart : RangesApart src.toNat dst.toNat len.toNat)
    (heq : chunkCount s.cfg src dst len * s.cfg.chunkBytes = len.toNat) :
    tick^[chunkCount s.cfg src dst len] (latchProc src dst len s) =
      (chunkStep^[chunkCount s.cfg src dst len] (latchProc src dst len s)).respond .ok := by
  have hpos := BitVec.toNat_pos_of_ne_zero h0
  cases hsel : wideSelected s.cfg src dst len with
  | false => simp [chunkCount_byte hsel] at heq; omega
  | true => rw [ticks_wide_chunks hc hapart hsel, if_pos heq]

/-- The bytes of the tail complete the command (R33, R35). -/
theorem ticks_tail {s : State} {src dst len : Word} (hapart : RangesApart src.toNat dst.toNat len.toNat)
    (hlt : chunkCount s.cfg src dst len * s.cfg.chunkBytes < len.toNat) :
    tick^[len.toNat - chunkCount s.cfg src dst len * s.cfg.chunkBytes]
        ((chunkStep^[chunkCount s.cfg src dst len] (latchProc src dst len s)).enterPhase .byte) =
      (transfer src dst len s).respond .ok := by
  obtain ⟨tr, k⟩ := chunkSteps_latchProc (s := s) hapart le_rfl
  rw [ticks_byte_last rfl (by omega), byteSteps_enterPhase, respond_enterPhase, transfer]
  simp only [State.enterPhase, k.pos, k.lenL, latchProc_seq]
  simp
  omega

theorem exec_proc_eq_ticks {s : State} {src dst len : Word} (hc : s.cfg.legal = true)
    (h : procCheck s.cfg s.valid src dst len = none) (h0 : len ≠ 0) :
    exec (.proc src dst len) s =
      .next (tick^[chunkCount s.cfg src dst len + (len.toNat - chunkCount s.cfg src dst len * s.cfg.chunkBytes)]
        (latchProc src dst len s)) := by
  have ha := (procCheck_none_iff_accepts ..).1 h
  have hapart := ha.rangesApart h0
  rw [exec, execProc_eq h h0, Nat.add_comm, Function.iterate_add_apply]
  rcases (chunkCount_mul_le s.cfg src dst len).lt_or_eq with hlt | heq
  · rw [ticks_chunks hc hapart hlt, ticks_tail hapart hlt]
  · rw [ticks_chunks_last hc h0 hapart heq, ticks_idle rfl]
    simp [transfer, heq]

/-- Settles O52: a command that a check refuses makes no micro-step, an accepted one by `exec_sched_eq_ticks` or
`exec_proc_eq_ticks`. -/
theorem phaseMachineEqualsCommand : Obligations.PhaseMachineEqualsCommand := by
  intro s i hc
  cases i with
  | sched kaddr klen =>
    cases h : schedCheck s.cfg kaddr klen with
    | some c =>
      rw [exec_sched_refused h]
      simp [tickCount, acceptInstr, h]
    | none => rw [exec_sched_eq_ticks h, tickCount, if_pos h, acceptInstr_sched h]
  | proc src dst len =>
    cases h : procCheck s.cfg s.valid src dst len with
    | some c =>
      rw [exec_proc_refused h]
      simp [tickCount, acceptInstr, h]
    | none =>
      by_cases h0 : len = 0
      · have hv := ((procCheck_none_iff_accepts ..).1 h).1
        subst h0
        have hacc : acceptInstr (.proc src dst 0) s = s.respond .ok := by
          simp only [acceptInstr, h, if_true]
        rw [exec_proc_zero hv, hacc, ticks_idle rfl]
      · rw [exec_proc_eq_ticks hc h h0, tickCount, if_pos h, acceptInstr_proc h h0]

/-! ### Termination (R202) -/

/-- A bound on the micro-steps left: the key-schedule steps in KSA, the bytes in WIDE and BYTE. -/
def remaining (s : State) : Nat :=
  match s.seq.phase with
  | .idle => 0
  | .ksa => 256 - s.seq.i.toNat
  | .wide => s.seq.lenL.toNat - s.seq.pos.toNat
  | .byte => s.seq.lenL.toNat - s.seq.pos.toNat

theorem remaining_le (s : State) : remaining s ≤ 2 ^ 32 := by
  have := s.seq.lenL.isLt
  unfold remaining
  split <;> omega

theorem remaining_of_idle {s : State} (h : s.seq.phase = .idle) : remaining s = 0 := by simp [remaining, h]

theorem remaining_tickKsa_lt {s : State} (hp : s.seq.phase = .ksa) (hi : s.seq.i.toNat < 256) :
    remaining (tickKsa s) < remaining s := by
  have hs : remaining s = 256 - s.seq.i.toNat := by simp [remaining, hp]
  unfold tickKsa
  simp only
  split
  · rw [remaining_of_idle rfl]; omega
  · simp [remaining, hp]; omega

theorem remaining_tickWide_lt {s : State} (hc : s.cfg.legal = true) (hp : s.seq.phase = .wide)
    (hle : s.seq.pos.toNat + s.cfg.chunkBytes ≤ s.seq.lenL.toNat) : remaining (tickWide s) < remaining s := by
  have hW := Config.chunkBytes_pos hc
  have hlen := s.seq.lenL.isLt
  have hs : remaining s = s.seq.lenL.toNat - s.seq.pos.toNat := by simp [remaining, hp]
  obtain ⟨t, u, ks, e⟩ := chunkStep_state s
  have hpos : (chunkStep s).seq.pos.toNat = s.seq.pos.toNat + s.cfg.chunkBytes := by simp [e]; omega
  have hl : (chunkStep s).seq.lenL = s.seq.lenL := by rw [e]
  have hph : (chunkStep s).seq.phase = .wide := by rw [e]; exact hp
  rw [hs, tickWide]
  split
  · split
    · rw [remaining_of_idle rfl]; omega
    · simp only [remaining, State.enterPhase, hpos, hl]; omega
  · simp only [remaining, hph, hpos, hl]; omega

theorem remaining_tickByte_lt {s : State} (hp : s.seq.phase = .byte) (hlt : s.seq.pos.toNat < s.seq.lenL.toNat) :
    remaining (tickByte s) < remaining s := by
  have hlen := s.seq.lenL.isLt
  have hs : remaining s = s.seq.lenL.toNat - s.seq.pos.toNat := by simp [remaining, hp]
  unfold tickByte
  simp only
  split
  · rw [remaining_of_idle rfl]; omega
  · simp [remaining, hp]; omega

/-- A micro-step of a busy engine leaves fewer to make. -/
theorem remaining_tick_lt {s : State} (h : s.Inv) (hp : s.seq.phase ≠ .idle) : remaining (tick s) < remaining s := by
  have hphase := h.phaseInv
  unfold State.PhaseInv at hphase
  unfold tick
  cases hq : s.seq.phase <;> rw [hq] at hphase
  · exact absurd hq hp
  · exact remaining_tickKsa_lt hq hphase.1
  · obtain ⟨-, -, -, -, hle⟩ := hphase
    exact remaining_tickWide_lt h.cfgLegal hq hle
  · obtain ⟨-, -, hlt⟩ := hphase
    exact remaining_tickByte_lt hq hlt

theorem ticks_become_idle {s : State} (h : s.Inv) {n : Nat} (hn : remaining s ≤ n) :
    (tick^[n] s).seq.phase = .idle := by
  induction n generalizing s with
  | zero =>
    by_contra hp
    have := remaining_tick_lt h hp
    omega
  | succ n ih =>
    rw [Function.iterate_succ_apply]
    by_cases hp : s.seq.phase = .idle
    · rw [tick_idle hp, ticks_idle hp, hp]
    · have := remaining_tick_lt h hp
      exact ih (tick_inv h) (by omega)

/-- Settles O53, by the measure `remaining`. -/
theorem everyCommandTerminates : Obligations.EveryCommandTerminates := fun s h =>
  ⟨remaining s, remaining_le s, ticks_become_idle h le_rfl⟩

end Sys2Proof.Machine
end

section
/-! PROOFS. The invariants: reset meets the machine's invariant and every step keeps it, the straps are constant, and
the table stays a permutation (10_state.md). -/

namespace Sys2Proof.Machine

/-! ### The invariant at reset and over a step -/

/-- At power-on memory is empty, VALID is 0, and KW and IW are cut to their width (R39). -/
theorem resetWith_inv {c : Config} (h : c.legal = true) : (State.resetWith c).Inv :=
  ⟨h, ⟨List.Pairwise.nil, by simp [State.resetWith]⟩, by simp [State.resetWith], by simp [State.resetWith],
    ⟨.ok, show (0 : Word) = responseWord false .ok by decide⟩, Sequencer.clip_width _ _, trivial⟩

/-- Settles O54: the straps of the vectors are legal. -/
theorem resetMeetsInvariant : Obligations.ResetMeetsInvariant :=
  ⟨fun _ hc => resetWith_inv hc, resetWith_inv (c := Config.vectors) (by decide)⟩

/-- A command keeps the invariant, because its micro-steps do (R37). -/
theorem exec_inv {s t : State} {i : Instr} (h : s.Inv) (ht : exec i s = .next t) : t.Inv := by
  rw [phaseMachineEqualsCommand s i h.cfgLegal] at ht
  obtain rfl := Host.Outcome.next.inj ht
  exact ticks_inv (acceptInstr_inv h i) _

theorem runDescriptor_inv {s t : State} {D : Descriptor} (h : s.Inv) (ht : runDescriptor D s = .next t) : t.Inv := by
  rcases runDescriptor_cases D s with ⟨why, -, hs⟩ | ⟨i, -, hs⟩
  · obtain rfl := Host.Outcome.next.inj (hs.symm.trans ht)
    exact h.raise .illegalCommand
  · exact exec_inv h (hs.symm.trans ht)

/-- A byte the host writes exists, so memory stays inside `0 .. MEM_BYTES − 1` (R50). -/
theorem State.Inv.write {s : State} (h : s.Inv) {a : Nat} (ha : a < s.cfg.memBytes) (b : Byte) :
    State.Inv { s with mem := s.mem.write a b } :=
  ⟨h.cfgLegal, Memory.write_wf h.memWf a b, Memory.write_within h.memWithin ha b, h.tablePermutation, h.statusForm,
    h.wordWidth, h.phaseInv⟩

/-- A reset during a command is a reset after some of its micro-steps (R193). -/
theorem abandon_inv {s : State} (h : s.Inv) (D : Descriptor) (n : Nat) : (abandon D n s).Inv :=
  (ticks_inv (accept_inv h D) n).hostReset.withResponses _

/-- Settles O55, case by case of what a step can do. -/
theorem stepKeepsInvariant : Obligations.StepKeepsInvariant := by
  intro s t h ht
  rcases step_cases ht with ⟨-, rfl⟩ | ⟨-, ⟨-, rfl⟩ | ⟨rest, hevent⟩⟩
  · exact tick_inv h
  · exact h
  · have h' := h.withPort rest
    rcases hevent with ⟨D, -, hs⟩ | ⟨a, b, -, ha, rfl⟩ | ⟨-, rfl⟩ | ⟨D, n, -, rfl⟩
    · exact runDescriptor_inv h' hs
    · exact h'.write ha b
    · exact h'.hostReset
    · exact abandon_inv h' D n

/-! ### The straps (R28) -/

theorem exec_cfg {s t : State} {i : Instr} (h : exec i s = .next t) : t.cfg = s.cfg := by
  cases i with
  | sched kaddr klen =>
    obtain ⟨-, hcfg, -⟩ := schedFrame s t kaddr klen h
    exact hcfg
  | proc src dst len =>
    obtain ⟨-, hcfg, -⟩ := procFrame s t src dst len h
    exact hcfg

theorem runDescriptor_cfg {s t : State} {D : Descriptor} (h : runDescriptor D s = .next t) : t.cfg = s.cfg := by
  rcases runDescriptor_cases D s with ⟨why, -, hs⟩ | ⟨i, -, hs⟩
  · obtain rfl := Host.Outcome.next.inj (hs.symm.trans h)
    rfl
  · exact exec_cfg (hs.symm.trans h)

theorem acceptInstr_frame (i : Instr) (s : State) :
    (acceptInstr i s).cfg = s.cfg ∧ (acceptInstr i s).port = s.port := by
  unfold acceptInstr
  cases i with
  | sched kaddr klen => simp only; split <;> exact ⟨rfl, rfl⟩
  | proc src dst len =>
    simp only
    split
    · exact ⟨rfl, rfl⟩
    · split <;> exact ⟨rfl, rfl⟩

theorem accept_frame (D : Descriptor) (s : State) : (accept D s).cfg = s.cfg ∧ (accept D s).port = s.port := by
  unfold accept
  cases decode D with
  | legal i => exact acceptInstr_frame i s
  | illegal why => exact ⟨rfl, rfl⟩

theorem abandon_cfg (D : Descriptor) (n : Nat) (s : State) : (abandon D n s).cfg = s.cfg :=
  (ticks_frame (accept D s) n).1.trans (accept_frame D s).1

/-- Settles O56, case by case of what a step can do. -/
theorem strapsAreConstant : Obligations.StrapsAreConstant := by
  intro s t h
  rcases step_cases h with ⟨-, rfl⟩ | ⟨-, ⟨-, rfl⟩ | ⟨rest, hevent⟩⟩
  · exact (tick_frame s).1
  · rfl
  · rcases hevent with ⟨D, -, hs⟩ | ⟨a, b, -, -, rfl⟩ | ⟨-, rfl⟩ | ⟨D, n, -, rfl⟩
    · exact runDescriptor_cfg (s := { s with port := rest }) hs
    · rfl
    · rfl
    · exact abandon_cfg D n _

/-! ### The table (R22) -/

/-- Settles O57: a key-schedule step and a byte of the byte path are one swap, a chunk is `W` keystream steps. -/
theorem stepsKeepPermutation : Obligations.StepsKeepPermutation := by
  intro s h
  refine ⟨Table.exchange_isPermutation h _ _, Table.exchange_isPermutation h _ _, ?_,
    Cipher.advance_isPermutation h⟩
  obtain ⟨-, -, -, -, -, -, hcipher⟩ := chunkStep_frame s
  rw [hcipher]
  exact Cipher.advance_isPermutation h _

end Sys2Proof.Machine
end

section
/-! PROOFS. Steps of an idle and of a busy engine, and reset: between two commands, during one and at power-on
(00_scope.md, 10_state.md, 70_reset_and_hazards.md). -/

namespace Sys2Proof.Machine

/-! ### Steps (R10, R33, R179) -/

theorem runDescriptor_legal {D : Descriptor} {i : Instr} (h : decode D = .legal i) (s : State) :
    runDescriptor D s = exec i s := by
  rw [runDescriptor, h]

/-- The table word of a command is its descriptor (R80). -/
theorem withFetchWord_encode (s : State) (i : Instr) :
    s.withFetchWord 128 (encode i).toNat =
      { s with port := .command (encode i) :: s.port, seq := { s.seq with phase := .idle } } := by
  rw [State.withFetchWord, Nat.mod_eq_of_lt (encode i).isLt, BitVec.ofNat_toNat, BitVec.setWidth_eq]

/-- An idle engine is as it was once PHASE is set to IDLE. -/
theorem enterPhase_idle {s : State} (h : s.seq.phase = .idle) : s.enterPhase .idle = s := by
  rw [State.enterPhase, ← h]

@[simp] theorem enterPhase_pos (s : State) (p : Phase) : (s.enterPhase p).seq.pos = s.seq.pos := rfl
@[simp] theorem enterPhase_lenL (s : State) (p : Phase) : (s.enterPhase p).seq.lenL = s.seq.lenL := rfl
@[simp] theorem enterPhase_mem (s : State) (p : Phase) : (s.enterPhase p).mem = s.mem := rfl

/-- Settles O8: the step takes the event, which decodes to the command; the table word placed for a command is its
encoding, and taking it from the port leaves the state it was placed in. -/
theorem stepRunsDecodedCommand : Obligations.StepRunsDecodedCommand := by
  refine ⟨fun s D rest i hp hq hD => ?_, fun s i hp => ?_⟩
  · rw [step_idle_cons hp hq]
    exact runDescriptor_legal hD _
  · rw [withFetchWord_encode, step_idle_cons rfl rfl]
    refine (runDescriptor_legal (decode_encode i) _).trans ?_
    exact congrArg (exec i) (enterPhase_idle hp)

/-- Settles O9: an idle engine has nothing to take. -/
theorem idleEngineWaits : Obligations.IdleEngineWaits := by
  intro s hp hq
  simp only [step, hp, hq]

/-- Settles O10, by `step_busy` and `tick_frame`. -/
theorem busyEngineTakesNoEvent : Obligations.BusyEngineTakesNoEvent := fun s hp =>
  ⟨step_busy hp, (tick_frame s).2.1⟩

/-- Settles O59: the step takes the event, and the host writes a byte of memory where it exists. -/
theorem hostWriteBetweenCommands : Obligations.HostWriteBetweenCommands := by
  intro s a b rest hm hp hq
  rw [step_idle_cons hp hq, handle, hostWrite]
  split
  · exact ⟨_, rfl, Memory.read_write_same hm _ b, fun x hx => Memory.read_write_ne _ b hx, rfl, rfl, rfl, rfl⟩
  · rfl

/-! ### Reset of an idle engine, and the first command after power-on (R39, R190) -/

/-- Settles O49: the step takes the event, and the rest is what `State.hostReset` sets and keeps. -/
theorem resetOfIdleEngine : Obligations.ResetOfIdleEngine := by
  intro s rest hp hq
  exact ⟨_, step_idle_cons hp hq, rfl, rfl, rfl, rfl, rfl, rfl, rfl⟩

/-- Settles O48: VALID is 0 after power-on, so PROC raises NoState; SCHED needs no context. -/
theorem firstCommandAfterReset : Obligations.FirstCommandAfterReset := by
  intro c
  refine ⟨rfl, rfl, rfl, fun src dst len => ?_, fun kaddr klen ha => ?_⟩
  · obtain ⟨t, hs, hst, -⟩ := noStateRaised (State.resetWith c) src dst len rfl
    exact ⟨t, hs, hst⟩
  · obtain ⟨t, hs, ht⟩ := exec_sched_accepted ha
    exact ⟨t, hs, ht.status⟩

/-! ### The micro-steps before a reset (R193) -/

/-- Key scheduling leaves memory as it was, however many micro-steps of it are made (R34). -/
theorem ticks_ksa_mem {s : State} (hp : s.seq.phase = .ksa) (n : Nat) : (tick^[n] s).mem = s.mem := by
  induction n generalizing s with
  | zero => rfl
  | succ n ih =>
    have htick : tick s = tickKsa s := by simp only [tick, hp]
    rw [Function.iterate_succ_apply, htick, tickKsa]
    split
    · rw [ticks_idle rfl]; rfl
    · exact ih (s := ksaStep s) hp

/-- In BYTE, `n` micro-steps write the bytes of `n` bytes of the byte path, or of those that are left (R35). -/
theorem ticks_byte_mem {s : State} (hp : s.seq.phase = .byte) (hlt : s.seq.pos.toNat < s.seq.lenL.toNat) (n : Nat) :
    (tick^[n] s).mem = (byteStep^[min n (s.seq.lenL.toNat - s.seq.pos.toNat)] s).mem := by
  rcases Nat.lt_or_ge n (s.seq.lenL.toNat - s.seq.pos.toNat) with h | h
  · rw [ticks_byte hp (by omega), min_eq_left h.le]
  · rw [min_eq_right h]
    generalize hd : s.seq.lenL.toNat - s.seq.pos.toNat = d at *
    obtain ⟨k, rfl⟩ := Nat.exists_eq_add_of_le' h
    rw [Function.iterate_add_apply, ticks_byte_last hp (by omega) (by omega), ticks_idle rfl, respond_mem]

/-- The bytes an accepted PROC has written once `k` of them are transferred (R123). -/
theorem TransferState.mem_latchProc {s t : State} {src dst len : Word} {k : Nat} {tr : List Access}
    (h : TransferState (latchProc src dst len s) k tr t) :
    t.mem = xorBytes s.cipher src.toNat dst.toNat k s.mem := by
  rw [h.mem, inputAddr_latchProc, outputAddr_latchProc, latchProc_cipher, latchProc_mem]

/-- Before its last chunk a PROC has written whole chunks (R36). -/
theorem ticks_wide_mem {s : State} {src dst len : Word} (hc : s.cfg.legal = true)
    (hapart : RangesApart src.toNat dst.toNat len.toNat) {n : Nat} (hn : n < chunkCount s.cfg src dst len) :
    (tick^[n] (latchProc src dst len s)).mem =
      xorBytes s.cipher src.toNat dst.toNat (n * s.cfg.chunkBytes) s.mem := by
  cases hsel : wideSelected s.cfg src dst len with
  | false => simp [chunkCount_byte hsel] at hn
  | true =>
    obtain ⟨tr, k⟩ := chunkSteps_latchProc hapart hn.le
    rw [ticks_wide (s := latchProc src dst len s) (by simp [startPhase, hsel]) rfl
      (by rwa [inputAddr_latchProc, outputAddr_latchProc]) (Config.chunkBytes_pos hc)
      (by simpa [chunkCount, hsel] using hn), k.mem_latchProc]

/-- After its chunks a PROC has written these and one byte for each further micro-step, until all are written
(R35, R142). -/
theorem ticks_tail_mem {s : State} {src dst len : Word} (hc : s.cfg.legal = true) (h0 : len ≠ 0)
    (hapart : RangesApart src.toNat dst.toNat len.toNat) (m : Nat) :
    (tick^[m + chunkCount s.cfg src dst len] (latchProc src dst len s)).mem =
      xorBytes s.cipher src.toNat dst.toNat
        (min len.toNat (chunkCount s.cfg src dst len * s.cfg.chunkBytes + m)) s.mem := by
  have hlen := len.isLt
  obtain ⟨tr, k⟩ := chunkSteps_latchProc (s := s) hapart le_rfl
  rw [Function.iterate_add_apply]
  rcases (chunkCount_mul_le s.cfg src dst len).lt_or_eq with hlt | heq
  · have hpos : (chunkStep^[chunkCount s.cfg src dst len] (latchProc src dst len s)).seq.pos.toNat =
        chunkCount s.cfg src dst len * s.cfg.chunkBytes := by rw [k.pos]; simp
    have hlenL : (chunkStep^[chunkCount s.cfg src dst len] (latchProc src dst len s)).seq.lenL = len := k.lenL
    have hk := k.trans (byteSteps_transfer (min m (len.toNat - chunkCount s.cfg src dst len * s.cfg.chunkBytes))
      (by rw [hpos]; omega))
    rw [ticks_chunks hc hapart hlt, ticks_byte_mem rfl (by rwa [enterPhase_pos, enterPhase_lenL, hpos, hlenL]),
      byteSteps_enterPhase, enterPhase_mem, enterPhase_pos, enterPhase_lenL, hpos, hlenL, hk.mem_latchProc]
    congr 1
    omega
  · rw [ticks_chunks_last hc h0 hapart heq, ticks_idle rfl, respond_mem, k.mem_latchProc]
    simp [heq]

/-- The bytes that `n` micro-steps of an accepted PROC have written: the first ones of its output, whole chunks on the
wide path (R193). -/
theorem ticks_proc_mem {s : State} {src dst len : Word} (hc : s.cfg.legal = true) (h0 : len ≠ 0)
    (hapart : RangesApart src.toNat dst.toNat len.toNat) (n : Nat) :
    (tick^[n] (latchProc src dst len s)).mem =
      xorBytes s.cipher src.toNat dst.toNat
        (min len.toNat (min n (chunkCount s.cfg src dst len) * s.cfg.chunkBytes + (n - chunkCount s.cfg src dst len)))
        s.mem := by
  rcases Nat.lt_or_ge n (chunkCount s.cfg src dst len) with hlt | hge
  · have hle : n * s.cfg.chunkBytes ≤ len.toNat :=
      (Nat.mul_le_mul_right _ hlt.le).trans (chunkCount_mul_le s.cfg src dst len)
    rw [ticks_wide_mem hc hapart hlt, min_eq_left hlt.le, Nat.sub_eq_zero_of_le hlt.le, Nat.add_zero, min_eq_right hle]
  · rw [min_eq_right hge]
    have htail := ticks_tail_mem hc h0 hapart (n - chunkCount s.cfg src dst len)
    rwa [Nat.sub_add_cancel hge] at htail

/-! ### Reset during a command (R193) -/

theorem accept_encode (i : Instr) (s : State) : accept (encode i) s = acceptInstr i s := by
  rw [accept, decode_encode]

/-- A reset during a command leaves the reset state, delivers no response, and leaves in memory and on the memory port
what the micro-steps before it left there. -/
theorem step_commandReset {s : State} {D : Descriptor} {n : Nat} {rest : List HostEvent} (hp : s.seq.phase = .idle)
    (hq : s.port = .commandReset D n :: rest) :
    ∃ t, step s = .next t ∧ t.valid = false ∧ t.status = 0 ∧ t.seq.phase = .idle ∧ t.port = rest ∧ t.cfg = s.cfg ∧
      t.responses = s.responses ∧ t.mem = (tick^[n] (accept D { s with port := rest })).mem ∧
      t.bus = (tick^[n] (accept D { s with port := rest })).bus := by
  obtain ⟨-, hport, -⟩ := ticks_frame (accept D { s with port := rest }) n
  refine ⟨_, step_idle_cons hp hq, rfl, rfl, rfl, ?_, abandon_cfg D n _, rfl, rfl, rfl⟩
  exact hport.trans (accept_frame D _).2

/-- A SCHED outside the contract comes to nothing but a response (R33). -/
theorem acceptInstr_sched_eq_respond {s : State} {kaddr klen : Word} (h : ¬ s.AcceptsSched kaddr klen) :
    ∃ c, acceptInstr (.sched kaddr klen) s = s.respond c := by
  cases hc : schedCheck s.cfg kaddr klen with
  | some c => exact ⟨c, by simp only [acceptInstr, hc]; rfl⟩
  | none => exact absurd ((schedCheck_none_iff_accepts ..).1 hc) h

/-- A PROC outside the contract or of LEN = 0 comes to nothing but a response (R33, R124). -/
theorem acceptInstr_proc_eq_respond {s : State} {src dst len : Word} (h : ¬ s.AcceptsProc src dst len ∨ len = 0) :
    ∃ c, acceptInstr (.proc src dst len) s = s.respond c := by
  cases hc : procCheck s.cfg s.valid src dst len with
  | some c => exact ⟨c, by simp only [acceptInstr, hc]; rfl⟩
  | none =>
    have h0 : len = 0 := h.resolve_left (not_not_intro ((procCheck_none_iff_accepts ..).1 hc))
    exact ⟨.ok, by simp only [acceptInstr, hc, if_pos h0]⟩

/-- Settles O51: by `step_commandReset` it is left to say what the micro-steps before the reset did to memory. -/
theorem resetDuringCommand : Obligations.ResetDuringCommand := by
  refine ⟨fun s src dst len n rest hc hm hp ha h0 hq => ?_, fun s kaddr klen n rest hp ha hq => ?_,
    fun s D n rest hp hq hnone => ?_⟩
  · obtain ⟨t, hs, hv, hst, hph, hport, hcfg, hresp, hmem, -⟩ := step_commandReset hp hq
    have hcheck := (procCheck_none_iff_accepts ..).2 ha
    have hapart := ha.rangesApart h0
    rw [accept_encode, acceptInstr_proc (s := { s with port := rest }) hcheck h0,
      ticks_proc_mem (s := { s with port := rest }) hc h0 hapart] at hmem
    refine ⟨t, hs, hv, hst, hph, hport, hcfg, hresp, fun p hk => ?_, fun a hout => ?_⟩
    · rw [hmem]
      exact xorBytes_read_inside hm s.cipher (hapart.mono (min_le_left _ _)) hk
    · rw [hmem]
      exact xorBytes_read_outside _ _ _ _ _ hout
  · obtain ⟨t, hs, hv, hst, hph, hport, hcfg, hresp, hmem, -⟩ := step_commandReset hp hq
    have hcheck := (schedCheck_none_iff_accepts ..).2 ha
    rw [accept_encode, acceptInstr_sched (s := { s with port := rest }) hcheck, ticks_ksa_mem rfl] at hmem
    exact ⟨t, hs, hv, hst, hph, hport, hcfg, hresp, hmem⟩
  · obtain ⟨t, hs, hv, hst, hph, hport, hcfg, hresp, hmem, hbus⟩ := step_commandReset hp hq
    have hrespond : ∃ c, accept D { s with port := rest } = State.respond { s with port := rest } c := by
      unfold accept
      cases hD : decode D with
      | illegal why => exact ⟨_, rfl⟩
      | legal i =>
        rw [hD] at hnone
        cases i with
        | sched kaddr klen => exact acceptInstr_sched_eq_respond hnone
        | proc src dst len => exact acceptInstr_proc_eq_respond hnone
    obtain ⟨c, hacc⟩ := hrespond
    rw [hacc, ticks_idle rfl] at hmem hbus
    exact ⟨t, hs, hv, hst, hph, hport, hcfg, hresp, hmem, hbus⟩

end Sys2Proof.Machine
end
